-- ==== Sys2Proof/Word.lean ====
section
/-! DEFINITION. The byte and the byte sequence (spec 00_scope R8, R9). Everything a rule computes with them stands in
Sys2Proof/Machine/Operands.lean. -/

namespace Sys2Proof

/-- A byte value, `u8` (R8). -/
abbrev Byte := BitVec 8

/-- A buffer: a finite sequence of bytes, index 0 first (R9). -/
abbrev Bytes := List Byte

end Sys2Proof
end

