-- ==== Sys2Proof/Syntax.lean ====
section
/-! DEFINITION. Engines, the wire header, command words with their operand records (spec 30_encoding R54-R56), and the one
instruction type: a constructor per row of spec/opcode_table.json. -/

namespace Sys2Proof

/-- The two engines (60_exceptions R108): EGRESS is engine number 0, INGRESS engine number 1. -/
inductive Engine where
  | egress
  | ingress
  deriving DecidableEq, Repr

/-- The four fields of the wire header (30_encoding R45). -/
structure Header where
  id      : BitVec 64
  fragN   : BitVec 8
  fragNum : BitVec 8
  len     : BitVec 16
  deriving DecidableEq, Repr

/-- An operand record (R56). The widths are part of the record. -/
inductive Operand where
  /-- No operand: what an assembler line `.cw` presents (R58). -/
  | empty
  /-- HENC's record: `id: u64, fragn: u8, fragnum: u8, len: u16`. -/
  | fields (h : Header)
  /-- A byte sequence: HDEC's `buf`, FRAG's `dgram`, REASM's `pkt`. -/
  | bytes (b : Bytes)
  /-- ALIGN's natural `n`. -/
  | natural (n : Nat)
  deriving DecidableEq, Repr

/-- What the host presents on an engine's command port: an 8-bit command word and an operand record (R54). -/
structure Command where
  engine  : Engine
  cw      : BitVec 8
  operand : Operand
  deriving DecidableEq, Repr

/-- The commands, one constructor per row of the opcode table, each addressed to an engine (R55, R56). The engine is part of
the instruction (entry 14): an assembler line names it (R58). -/
inductive Instr where
  /-- `HENC` (40_codec R59). -/
  | henc (e : Engine) (id : BitVec 64) (fragn fragnum : BitVec 8) (len : BitVec 16)
  /-- `HDEC` (R60). -/
  | hdec (e : Engine) (buf : Bytes)
  /-- `ALIGN` (41_align R63). -/
  | align (e : Engine) (n : Nat)
  /-- `FRAG` (42_fragmenter R67). -/
  | frag (e : Engine) (dgram : Bytes)
  /-- `REASM` (43_reassembler R78). -/
  | reasm (e : Engine) (pkt : Bytes)
  deriving DecidableEq, Repr

/-- The engine a command is addressed to. -/
def Instr.engine : Instr → Engine
  | .henc e _ _ _ _ => e
  | .hdec e _ => e
  | .align e _ => e
  | .frag e _ => e
  | .reasm e _ => e

end Sys2Proof
end

