-- ==== Sys2Proof/WellFormed.lean ====
section
/-! DEFINITION. Which instructions the opcode map has (spec 30_encoding R55, R57): FRAG on EGRESS only, REASM on INGRESS only.
The operand widths are in the types, so nothing else can be ill-formed. -/

namespace Sys2Proof

/-- The instruction may be executed on the engine it is addressed to (R55, column "engines"). -/
def Instr.wf : Instr → Bool
  | .henc _ _ _ _ _ => true
  | .hdec _ _ => true
  | .align _ _ => true
  | .frag e _ => e == .egress
  | .reasm e _ => e == .ingress

end Sys2Proof
end

