-- ==== Sys2Proof/Decode.lean ====
section
/-! DEFINITION. The opcode map (spec 30_encoding R55), the total decoder of commands, the encoder, and the host's view of a
table word. -/

namespace Sys2Proof

/-- The five rows of the opcode map. -/
inductive Opcode where
  | henc
  | hdec
  | align
  | frag
  | reasm
  deriving DecidableEq, Repr

/-- Why a presented command is not an instruction. -/
inductive DecodeError where
  /-- The word is not in the opcode map, or not for this engine (R57): the command ends with `ERR_ILLEGAL_OP` (R98). -/
  | illegalOp
  /-- A legal word with an operand record of another command, which R56 says cannot be presented (entry 8). -/
  | operandMismatch
  deriving DecidableEq, Repr

/-- The opcode map (R55, R57): the row of a command word on an engine. It looks at the word before any operand (R98, R100). -/
def opcodeOf (e : Engine) (cw : BitVec 8) : Option Opcode :=
  if cw = 0x01#8 then some .henc
  else if cw = 0x02#8 then some .hdec
  else if cw = 0x03#8 then some .align
  else if cw = 0x04#8 then (if e = .egress then some .frag else none)
  else if cw = 0x05#8 then (if e = .ingress then some .reasm else none)
  else none

/-- The instruction of a row with its operand record (R56). -/
def instrOf (e : Engine) (op : Opcode) (o : Operand) : Option Instr :=
  match op, o with
  | .henc, .fields h => some (.henc e h.id h.fragN h.fragNum h.len)
  | .hdec, .bytes b => some (.hdec e b)
  | .align, .natural n => some (.align e n)
  | .frag, .bytes b => some (.frag e b)
  | .reasm, .bytes b => some (.reasm e b)
  | _, _ => none

/-- The decoder: total, rejecting by name. -/
def decode (c : Command) : Except DecodeError Instr :=
  match opcodeOf c.engine c.cw with
  | none => .error .illegalOp
  | some op =>
    match instrOf c.engine op c.operand with
    | none => .error .operandMismatch
    | some i => .ok i

/-- The encoder (R55, R56): the command word and the operand record of an instruction. -/
def encode : Instr → Command
  | .henc e id fragn fragnum len => ⟨e, 0x01#8, .fields ⟨id, fragn, fragnum, len⟩⟩
  | .hdec e b => ⟨e, 0x02#8, .bytes b⟩
  | .align e n => ⟨e, 0x03#8, .natural n⟩
  | .frag e b => ⟨e, 0x04#8, .bytes b⟩
  | .reasm e b => ⟨e, 0x05#8, .bytes b⟩

/-- The operand record of zeros that goes with a command word: zero fields, the number 0, the empty sequence; for a word
outside the opcode map the empty record (R58). -/
def zeroOperand (cw : BitVec 8) : Operand :=
  if cw = 0x01#8 then .fields ⟨0, 0, 0, 0⟩
  else if cw = 0x02#8 then .bytes []
  else if cw = 0x03#8 then .natural 0
  else if cw = 0x04#8 then .bytes []
  else if cw = 0x05#8 then .bytes []
  else .empty

/-- The engine a table word is presented to: INGRESS for `REASM`, EGRESS for every other word (entry 14). -/
def tableEngine (cw : BitVec 8) : Engine :=
  if cw = 0x05#8 then .ingress else .egress

/-- The command a table word stands for, with an operand record of zeros. -/
def tableCommand (w : Nat) : Command :=
  let cw := BitVec.ofNat 8 w
  ⟨tableEngine cw, cw, zeroOperand cw⟩

/-- The instruction the decoder reads from a table word of `nbits` bits. A command is one 8-bit word (R54), so a word of
another length is none. -/
def decodeTableWord (nbits w : Nat) : Option Instr :=
  if nbits = 8 ∧ w < 256 then
    match decode (tableCommand w) with
    | .ok i => some i
    | .error _ => none
  else none

end Sys2Proof
end

