-- ==== Sys2Proof/Config.lean ====
section
/-! DEFINITION. What an instance fixes (spec 00_scope R5, 10_state R27) and the one free value of the spec, the seed of the
egress sequence counter. -/

namespace Sys2Proof

/-- The configuration registers CFG0 .. CFG5 (10_state R27), read-only for the life of an instance. Each is held as a natural
so that the values R28 refuses (a `MAX_PAY` above 65535, a `FRAG_CAP` above 255) can be written down and refused;
`Cfg.valid` (Machine/Flags.lean) is the check. -/
structure Cfg where
  /-- CFG0 `BLOCK`: cipher block size in bytes. -/
  block    : Nat
  /-- CFG1 `MAX_PAY`: most payload bytes a fragment carries. -/
  maxPay   : Nat
  /-- CFG2 `MIN_PAY`: the reassembler's sanity floor. -/
  minPay   : Nat
  /-- CFG3 `FRAG_CAP`: fragments one slot can hold. -/
  fragCap  : Nat
  /-- CFG4 `NSLOTS`: hardwired to 3. -/
  nslots   : Nat
  /-- CFG5 `MAX_DGRAM`: largest outbound datagram. -/
  maxDgram : Nat
  deriving DecidableEq, Repr

/-- The number of slots this hardware has (R5, R21; 92 D8). -/
abbrev Config.nslots : Nat := 3

/-- The reference configuration (R5, column "reference"). DESIGN CHOICE (entry 4): `State.reset` is the instance with this
configuration; every meaning takes the configuration from the state and works for any. -/
def Config.reference : Cfg :=
  { block := 16, maxPay := 500, minPay := 1, fragCap := 32, nslots := 3, maxDgram := 8192 }

/-- FREE VALUE (entry 5): the n-th draw of `ID_SEED` (70 R112: "a cryptographically secure random source"; 93 I5: any value).
It has no body, so nothing can be proved of a draw and every claim holds for every draw. -/
opaque Config.idSeed : Nat → BitVec 64

end Sys2Proof
end

