-- ==== Sys2Proof/Machine/State.lean ====
section
/-! DEFINITION. The state of a tun-core instance (spec 10_state R14), the statuses (60_exceptions R97), the observation trace
(00_scope R13) and the host's inputs, all plain data; and the state after power-on reset (70_reset_and_hazards R111-R114). -/

namespace Sys2Proof.Machine

/-- The statuses of the closed table (60_exceptions R97). -/
inductive Status where
  | ok
  | emitFast
  | emitReasm
  | pending
  | pvShort
  | pvLength
  | pvBadHeader
  | pvCountMismatch
  | frEmpty
  | frTooLong
  | frTooMany
  | errIllegalOp
  | errShortBuffer
  deriving DecidableEq, Repr

/-- What a command presents beside its status: its result record (30_encoding R56) or an output port's data (20_memory R38,
R39). -/
inductive Output where
  /-- Nothing presented: `PENDING`, every `PV_*`, and every fault status, whose result record no claim may read (93 I4,
  entry 10). -/
  | nothing
  /-- HENC's `hdr`. -/
  | hdr (b : Bytes)
  /-- HDEC's `id, fragn, fragnum, len`. -/
  | fields (h : Header)
  /-- ALIGN's `m`. -/
  | natural (m : Nat)
  /-- FRAG's `count` and the packets on the EGRESS packet output, first emitted first (R38). -/
  | packets (count : Nat) (pkts : List Bytes)
  /-- The datagram on the INGRESS datagram output (R39). -/
  | datagram (d : Bytes)
  deriving DecidableEq, Repr

/-- One entry of the observation trace (00_scope R13): a command issued, the status it returned, what it presented. -/
structure Event where
  command : Command
  status  : Status
  output  : Output
  deriving DecidableEq, Repr

/-- The reset events (70 R111): `RST_E`, `RST_I`, and power-on reset, which is both at once. -/
inductive ResetEvent where
  | rstE
  | rstI
  | powerOn
  deriving DecidableEq, Repr

/-- What the host does to a run besides issuing commands and resets (60 R106, R107, R110; entry 9). -/
inductive HostEvent where
  /-- TransientTransportError: logged, the loop continues. -/
  | transientTransportError
  /-- MalformedOutputRejection: the ingress loop terminates, egress continues. -/
  | malformedOutputRejection
  /-- A fatal classification (FatalIOError, or an `FR_*` or `ERR_*` status treated as fatal): both loops terminate. -/
  | fatal
  deriving DecidableEq, Repr

/-- One move of the host. -/
inductive Input where
  | command (c : Command)
  | reset (r : ResetEvent)
  | host (ev : HostEvent)
  deriving DecidableEq, Repr

/-- A slot index `s` in `0 .. NSLOTS-1`. -/
abbrev SlotIx := Fin Config.nslots

/-- A slot of the DefragTable (10_state R22). `frag` has exactly `FRAG_CAP` entries, each absent (`none`) or present. -/
structure Slot where
  id       : BitVec 64
  expected : BitVec 8
  frag     : List (Option Bytes)
  deriving DecidableEq, Repr

/-- The DefragTable (R21): `NSLOTS` slots and `ORDER`, a list of the slot indices, head (most recently touched) first (R24). -/
structure DefragTable where
  slots : Vector Slot Config.nslots
  order : List SlotIx
  deriving DecidableEq, Repr

/-- The machine. `id`, `table` and `cfg` are the complete architectural state (R14). The other fields are the model's own,
because inputs, outputs and statuses must stand somewhere for a step to read and write them (entries 1, 3, 5, 9). -/
structure State where
  /-- The configuration registers CFG0 .. CFG5 (R27). -/
  cfg    : Cfg
  /-- EGRESS's sequence counter `ID` (R15). -/
  id     : BitVec 64
  /-- INGRESS's DefragTable (R21). -/
  table  : DefragTable
  /-- How many values of `ID_SEED` have been drawn (entry 5). -/
  draws  : Nat
  /-- The host's moves still to come, oldest first (entry 1). -/
  inputs : List Input
  /-- EGRESS's observation trace, oldest first (R13). -/
  traceE : List Event
  /-- INGRESS's observation trace, oldest first (R13). -/
  traceI : List Event
  /-- The host has ended EGRESS's run (60 R110; entry 9). -/
  endedE : Bool
  /-- The host has ended INGRESS's run (60 R110; entry 9). -/
  endedI : Bool
  deriving DecidableEq, Repr

/-- No fault outcome exists: "The block never stops by itself" (70 R123), and a command that ends with a fault status `FR_*` or
`ERR_*` leaves the block ready for the next command (60 R104), so it is a next state with the status in the trace (entry 6). -/
inductive Fault where
  deriving DecidableEq, Repr

/-- Where the model gives no meaning. -/
inductive Refusal where
  /-- Raised by exec for an instruction without a meaning; no arm does so. Safe. -/
  | notModelled (mnemonic : String)
  /-- Raised by every meaning and by step when the configuration is outside its legal ranges: R28 refuses the instance and gives
  it no meaning. Safe (entry 7). -/
  | invalidConfig
  /-- Raised by step for a legal command word presented with an operand record of another command, which R56 says cannot be
  presented. Safe (entry 8). -/
  | operandMismatch
  /-- Raised by step for a command to an engine whose run the host has ended: R110 allows no continued run. Safe (entry 9). -/
  | runEnded (e : Engine)
  deriving DecidableEq, Repr

/-- A slot after reset (70 R113). -/
def Slot.reset (fragCap : Nat) : Slot :=
  { id := 0, expected := 0, frag := List.replicate fragCap none }

/-- The DefragTable after reset (R113): every slot reset, `ORDER = [0, 1, 2]`. -/
def DefragTable.reset (fragCap : Nat) : DefragTable :=
  { slots := Vector.replicate Config.nslots (Slot.reset fragCap), order := [0, 1, 2] }

/-- The instance with configuration `cfg` right after power-on reset (R111-R114): a first seed drawn, the table reset, no
output pending, no command in progress. -/
def State.powerOn (cfg : Cfg) : State :=
  { cfg := cfg
    id := Config.idSeed 0
    table := DefragTable.reset cfg.fragCap
    draws := 1
    inputs := []
    traceE := []
    traceI := []
    endedE := false
    endedI := false }

/-- The machine right after reset: the instance with the reference configuration (entry 4). -/
def State.reset : State := State.powerOn Config.reference

end Sys2Proof.Machine
end

