-- ==== Sys2Proof/Machine/Operands.lean ====
section
/-! DEFINITION. Byte sequences and the arithmetic of operands: buffer reads, little-endian integers, `ceil_div`, `align_up`, the
wire header codec and the wire packet (spec 00_scope R8-R11, 30_encoding R45-R51, 41_align R64). -/

namespace Sys2Proof.Machine

/-- `BufRead(b, o, n) = b[o:o+n]` (R11). -/
def bufRead (b : Bytes) (o n : Nat) : Bytes := (b.drop o).take n

/-- `BufWrite(b, o, v)`: `b` except bytes `o .. o+len(v)-1`, which are `v` (R11). -/
def bufWrite (b : Bytes) (o : Nat) (v : Bytes) : Bytes := b.take o ++ v ++ b.drop (o + v.length)

/-- `zeros(k)` (R9). -/
def zeros (k : Nat) : Bytes := List.replicate k 0

/-- `bytesLE(v, k)`: the `k` bytes of `v`, least significant first (R9, R35). -/
def bytesLE (v : Nat) : Nat → Bytes
  | 0 => []
  | k + 1 => BitVec.ofNat 8 v :: bytesLE (v / 256) k

/-- The little-endian integer of a whole sequence (R9). -/
def leNat : Bytes → Nat
  | [] => 0
  | b :: bs => b.toNat + 256 * leNat bs

/-- The little-endian integer of the `k` bytes of `b` at offset `o`; `LE16` and `LE64` of R9 are `k = 2` and `k = 8`. -/
def readLE (b : Bytes) (o k : Nat) : Nat := leNat (bufRead b o k)

/-- `ceil_div(a, b)` (R10). -/
def ceilDiv (a b : Nat) : Nat := (a + b - 1) / b

/-- `align_up(n, B)` (41_align R64). -/
def alignUp (n B : Nat) : Nat := ceilDiv n B * B

/-- `hdr_encode` (30_encoding R47): always 12 bytes. -/
def hdrEncode (h : Header) : Bytes :=
  bytesLE h.id.toNat 8 ++ bytesLE h.fragN.toNat 1 ++ bytesLE h.fragNum.toNat 1 ++ bytesLE h.len.toNat 2

/-- `hdr_decode` (R48), for a sequence of at least 12 bytes: `HDEC` and `REASM` check the length before they use it. -/
def hdrDecode (b : Bytes) : Header :=
  { id := BitVec.ofNat 64 (readLE b 0 8)
    fragN := BitVec.ofNat 8 (readLE b 8 1)
    fragNum := BitVec.ofNat 8 (readLE b 9 1)
    len := BitVec.ofNat 16 (readLE b 10 2) }

/-- The pad that follows a payload of `l` bytes (R50, R51). -/
def pad (block l : Nat) : Bytes := zeros (alignUp (12 + l) block - (12 + l))

/-- A wire packet (R50): header with `Len = len(pay)`, payload, zero pad. -/
def packet (block : Nat) (id : BitVec 64) (fragN fragNum : BitVec 8) (pay : Bytes) : Bytes :=
  hdrEncode ⟨id, fragN, fragNum, BitVec.ofNat 16 pay.length⟩ ++ pay ++ pad block pay.length

end Sys2Proof.Machine
end

