-- ==== Sys2Proof/Machine/Flags.lean ====
section
/-! DEFINITION. The block has no flags (spec 10_state R20); in their place every command returns a status. Here are the codes
and kinds of the statuses (60_exceptions R97) and the checks that decide a fault or a violation before anything is written
(R100): of the configuration (10_state R28), of HDEC, of FRAG and of REASM. -/

namespace Sys2Proof.Machine

/-- The 8-bit code of a status (R97). -/
def Status.code : Status → BitVec 8
  | .ok => 0x00
  | .emitFast => 0x01
  | .emitReasm => 0x02
  | .pending => 0x03
  | .pvShort => 0x10
  | .pvLength => 0x11
  | .pvBadHeader => 0x12
  | .pvCountMismatch => 0x13
  | .frEmpty => 0x20
  | .frTooLong => 0x21
  | .frTooMany => 0x22
  | .errIllegalOp => 0x30
  | .errShortBuffer => 0x31

/-- The column "kind" of R97. -/
inductive StatusKind where
  | success
  | protocolViolation
  | fault
  deriving DecidableEq, Repr

/-- The kind of a status (R97, R99, R104). -/
def Status.kind : Status → StatusKind
  | .ok => .success
  | .emitFast => .success
  | .emitReasm => .success
  | .pending => .success
  | .pvShort => .protocolViolation
  | .pvLength => .protocolViolation
  | .pvBadHeader => .protocolViolation
  | .pvCountMismatch => .protocolViolation
  | .frEmpty => .fault
  | .frTooLong => .fault
  | .frTooMany => .fault
  | .errIllegalOp => .fault
  | .errShortBuffer => .fault

/-- HDEC's check (40_codec R60). -/
def hdecFault (buf : Bytes) : Option Status :=
  if buf.length < 12 then some .errShortBuffer else none

/-- FRAG's checks, in the order of R67 and R100, for a datagram of `n` bytes (42_fragmenter R68). -/
def fragFault (cfg : Cfg) (n : Nat) : Option Status :=
  if n = 0 then some .frEmpty
  else if cfg.maxDgram < n then some .frTooLong
  else if 255 < ceilDiv n cfg.maxPay then some .frTooMany
  else none

/-- REASM's checks of a packet's length, in the order of R78 and R100 (43_reassembler R79, R81). -/
def lengthViolation (cfg : Cfg) (pkt : Bytes) : Option Status :=
  if pkt.length < 12 + cfg.minPay then some .pvShort
  else if pkt.length ≠ alignUp (12 + (hdrDecode pkt).len.toNat) cfg.block then some .pvLength
  else none

/-- REASM's header check on the slow path (R84), before the lookup, on hit and miss alike (90_conflicts C9). -/
def badHeader (cfg : Cfg) (h : Header) : Bool :=
  decide (cfg.fragCap < h.fragNum.toNat) || decide (h.fragNum.toNat ≤ h.fragN.toNat)

end Sys2Proof.Machine

namespace Sys2Proof

/-- The legal ranges of the configuration registers (10_state R27): an instance outside them is refused (R28). -/
def Cfg.valid (c : Cfg) : Bool :=
  decide (1 ≤ c.block) && decide (1 ≤ c.maxPay) && decide (c.maxPay ≤ 65535) && decide (1 ≤ c.fragCap)
    && decide (c.fragCap ≤ 255) && decide (c.nslots = Config.nslots) && decide (1 ≤ c.maxDgram)

end Sys2Proof
end

