-- ==== Sys2Proof/Machine/Ops.lean ====
section
/-! DEFINITION. The named operations over the state: the slots and the LRU order of the DefragTable (spec 10_state R22-R24),
ending a command with its status (60_exceptions R97, R102), the refusal of an invalid configuration (10_state R28), the reset
events (70 R111-R115) and the host's events (60 R106, R110). -/

namespace Sys2Proof.Machine

/-! ## Slots (10_state R22, R23) -/

/-- `SLOT[s].frag[j]`: absent or a byte sequence. -/
def Slot.fragAt (sl : Slot) (j : Nat) : Option Bytes := sl.frag.getD j none

/-- `count(s)` (R23). -/
def Slot.count (sl : Slot) : Nat := sl.frag.countP Option.isSome

/-- Every `frag[j]` with `j` in `0 .. n-1` is present (R23, R90). -/
def Slot.allPresent (sl : Slot) (n : Nat) : Bool := (List.range n).all fun j => (sl.fragAt j).isSome

/-- `complete(s)` (R23). -/
def Slot.complete (sl : Slot) : Bool :=
  decide (1 ≤ sl.expected.toNat) && sl.allPresent sl.expected.toNat

/-- `frag[0] ++ frag[1] ++ .. ++ frag[n-1]` (R91). -/
def Slot.gather (sl : Slot) (n : Nat) : Bytes := (List.range n).flatMap fun j => (sl.fragAt j).getD []

/-- `SLOT[s].frag[j] <- pay` (R89): a present entry is replaced. -/
def Slot.store (sl : Slot) (j : Nat) (pay : Bytes) : Slot := { sl with frag := sl.frag.set j (some pay) }

/-- `SLOT[s].expected <- n` (R87). -/
def Slot.setExpected (sl : Slot) (n : BitVec 8) : Slot := { sl with expected := n }

/-- `frag[j] <- absent` for all `j`; `id` and `expected` are kept (R91). -/
def Slot.clear (sl : Slot) (fragCap : Nat) : Slot := { sl with frag := List.replicate fragCap none }

/-- The slot a miss makes (R88). -/
def Slot.fresh (fragCap : Nat) (h : Header) : Slot :=
  { id := h.id, expected := h.fragNum, frag := List.replicate fragCap none }

/-! ## The DefragTable (R21, R24) -/

/-- `SLOT[s]`. -/
def DefragTable.slot (t : DefragTable) (s : SlotIx) : Slot := t.slots[s.val]'s.isLt

/-- `SLOT[s] <- sl`. -/
def DefragTable.setSlot (t : DefragTable) (s : SlotIx) (sl : Slot) : DefragTable :=
  { t with slots := t.slots.set s.val sl s.isLt }

/-- `promote(s)` (R24): `s` to the head, the others keep their relative order. -/
def DefragTable.promote (t : DefragTable) (s : SlotIx) : DefragTable :=
  { t with order := s :: t.order.filter (fun k => k ≠ s) }

/-- `demote(s)` (R24): `s` to the tail, the others keep their relative order. -/
def DefragTable.demote (t : DefragTable) (s : SlotIx) : DefragTable :=
  { t with order := t.order.filter (fun k => k ≠ s) ++ [s] }

/-- `ORDER[NSLOTS-1]`, the tail. `ORDER` is never empty in a reachable state (R32); on an empty one the model reads the last
slot (entry 12). -/
def DefragTable.tail (t : DefragTable) : SlotIx := t.order.getLastD 2

/-- The lookup (43_reassembler R85): the head-most slot whose `id` is the packet's, whatever its `count`. -/
def DefragTable.lookup (t : DefragTable) (id : BitVec 64) : Option SlotIx :=
  t.order.find? fun s => (t.slot s).id == id

/-! ## Writing the state -/

/-- `ID <- v`. -/
def State.setId (s : State) (v : BitVec 64) : State := { s with id := v }

/-- The DefragTable becomes `t`. -/
def State.setTable (s : State) (t : DefragTable) : State := { s with table := t }

/-- The host's remaining moves become `l`. -/
def State.setInputs (s : State) (l : List Input) : State := { s with inputs := l }

/-- Append an event to the observation trace of its command's engine (R13). -/
def State.record (s : State) (ev : Event) : State :=
  match ev.command.engine with
  | .egress => { s with traceE := s.traceE ++ [ev] }
  | .ingress => { s with traceI := s.traceI ++ [ev] }

/-- The observation trace of an engine. -/
def State.trace (s : State) (e : Engine) : List Event :=
  match e with
  | .egress => s.traceE
  | .ingress => s.traceI

/-- The host has ended the engine's run (60 R110). -/
def State.hasEnded (s : State) (e : Engine) : Bool :=
  match e with
  | .egress => s.endedE
  | .ingress => s.endedI

/-! ## Ending a command -/

/-- An instance with an invalid configuration is given no meaning (R12(c), R28). -/
def whenValid (s : State) (k : Host.Outcome State Fault Refusal) : Host.Outcome State Fault Refusal :=
  if s.cfg.valid then k else .refused .invalidConfig

/-- `return ST` (R11): the command ends with a status and its output, in the state its rule has written. -/
def finish (c : Command) (st : Status) (out : Output) (s : State) : Host.Outcome State Fault Refusal :=
  .next (s.record ⟨c, st, out⟩)

/-- `raise ST` (R11), the block's only exception entry: no state written, no output presented, nothing saved and control
transferred nowhere; the status goes to the host (60 R102), and the trace keeps it (R104). There is no return from it: the
engine accepts the next command (R103). -/
def raise (c : Command) (st : Status) (s : State) : Host.Outcome State Fault Refusal :=
  finish c st .nothing s

/-- An illegal command (R98), whatever its operand. -/
def execIllegal (c : Command) (s : State) : Host.Outcome State Fault Refusal :=
  whenValid s (raise c .errIllegalOp s)

/-! ## Reset (70 R111-R115) and the host's events (60 R106, R107, R110) -/

/-- `RST_E` (R112): `ID` takes a new draw of the seed (R115). -/
def resetEgress (s : State) : State :=
  { s with id := Config.idSeed s.draws, draws := s.draws + 1, endedE := false }

/-- `RST_I` (R113): the table as after reset; every partial datagram is gone without a status (R115). -/
def resetIngress (s : State) : State :=
  { s with table := DefragTable.reset s.cfg.fragCap, endedI := false }

/-- A reset event; power-on is both at once (R111). Configuration and trace stay (R114, entry 15). -/
def applyReset (r : ResetEvent) (s : State) : State :=
  match r with
  | .rstE => resetEgress s
  | .rstI => resetIngress s
  | .powerOn => resetIngress (resetEgress s)

/-- A host event: it changes no state of the block (R106); a termination ends the run of the engines it names (R107, R110,
70 R123). -/
def applyHost (ev : HostEvent) (s : State) : State :=
  match ev with
  | .transientTransportError => s
  | .malformedOutputRejection => { s with endedI := true }
  | .fatal => { s with endedE := true, endedI := true }

end Sys2Proof.Machine
end

