-- ==== Sys2Proof/Machine/Align.lean ====
section
/-! DEFINITION. The AlignmentMath command ALIGN (spec 41_align R63). -/

namespace Sys2Proof.Machine

/-- `ALIGN` (R63): `n` rounded up to the configured block size, always `OK`, no state written. -/
def execAlign (e : Engine) (n : Nat) (s : State) : Host.Outcome State Fault Refusal :=
  whenValid s <| finish (encode (.align e n)) .ok (.natural (alignUp n s.cfg.block)) s

end Sys2Proof.Machine
end

