-- ==== Sys2Proof/Machine/Codec.lean ====
section
/-! DEFINITION. The HeaderCodec commands HENC and HDEC (spec 40_codec R59, R60). -/

namespace Sys2Proof.Machine

/-- `HENC` (R59): the 12 header bytes, always `OK`, no field checked, no state written. -/
def execHenc (e : Engine) (id : BitVec 64) (fragn fragnum : BitVec 8) (len : BitVec 16) (s : State) :
    Host.Outcome State Fault Refusal :=
  whenValid s <|
    finish (encode (.henc e id fragn fragnum len)) .ok (.hdr (hdrEncode ⟨id, fragn, fragnum, len⟩)) s

/-- `HDEC` (R60): the four fields of the first 12 bytes, or `ERR_SHORT_BUFFER`; no state written. -/
def execHdec (e : Engine) (buf : Bytes) (s : State) : Host.Outcome State Fault Refusal :=
  whenValid s <|
    match hdecFault buf with
    | some st => raise (encode (.hdec e buf)) st s
    | none => finish (encode (.hdec e buf)) .ok (.fields (hdrDecode buf)) s

end Sys2Proof.Machine
end

