-- ==== Sys2Proof/Machine/Fragmenter.lean ====
section
/-! DEFINITION. The Fragmenter command FRAG (spec 42_fragmenter R67-R77). -/

namespace Sys2Proof.Machine

/-- `fnum = ceil_div(n, MAX_PAY)` (R68). -/
def fragCount (cfg : Cfg) (n : Nat) : Nat := ceilDiv n cfg.maxPay

/-- `plen = ceil_div(n, fnum)` (R69). -/
def fragSize (cfg : Cfg) (n : Nat) : Nat := ceilDiv n (fragCount cfg n)

/-- The payload of fragment `k` (R70): `dgram[k·plen : k·plen + min(plen, n - k·plen)]`. -/
def fragPayload (cfg : Cfg) (dgram : Bytes) (k : Nat) : Bytes :=
  let plen := fragSize cfg dgram.length
  bufRead dgram (k * plen) (min plen (dgram.length - k * plen))

/-- The packet of fragment `k` under sequence number `id` (R71, R72). -/
def fragPacket (cfg : Cfg) (id : BitVec 64) (dgram : Bytes) (k : Nat) : Bytes :=
  packet cfg.block id (BitVec.ofNat 8 k) (BitVec.ofNat 8 (fragCount cfg dgram.length)) (fragPayload cfg dgram k)

/-- The packets of a datagram, in increasing `FragN` (R73). -/
def fragPackets (cfg : Cfg) (id : BitVec 64) (dgram : Bytes) : List Bytes :=
  (List.range (fragCount cfg dgram.length)).map (fragPacket cfg id dgram)

/-- `FRAG` (R67): illegal on INGRESS (R57, R98); the faults of R68, with nothing emitted or written; else every packet, and
`ID` advances by one modulo 2^64 (R74). -/
def execFrag (e : Engine) (dgram : Bytes) (s : State) : Host.Outcome State Fault Refusal :=
  whenValid s <|
    if e = .egress then
      match fragFault s.cfg dgram.length with
      | some st => raise (encode (.frag e dgram)) st s
      | none =>
        finish (encode (.frag e dgram)) .ok
          (.packets (fragCount s.cfg dgram.length) (fragPackets s.cfg s.id dgram)) (s.setId (s.id + 1))
    else raise (encode (.frag e dgram)) .errIllegalOp s

end Sys2Proof.Machine
end

