-- ==== Sys2Proof/Machine/Reassembler.lean ====
section
/-! DEFINITION. The Reassembler command REASM over the LRU DefragTable (spec 43_reassembler R78-R96). -/

namespace Sys2Proof.Machine

/-- What a REASM answers: its status, what it presents, and the table it leaves. -/
structure Answer where
  status : Status
  output : Output
  table  : DefragTable
  deriving DecidableEq, Repr

/-- A rejection or a fast-path delivery: the table is left as it was (R92). -/
def answerUnchanged (st : Status) (out : Output) (t : DefragTable) : Answer := ⟨st, out, t⟩

/-- Store the fragment in slot `s` (R89); if one of the `FragNum` fragments is still absent the datagram is pending (R90), else
it is emitted, the slot's fragments are cleared and the slot goes to the tail (R91). -/
def storeFragment (cfg : Cfg) (h : Header) (pay : Bytes) (s : SlotIx) (t : DefragTable) : Answer :=
  let sl := (t.slot s).store h.fragN.toNat pay
  if sl.allPresent h.fragNum.toNat then
    ⟨.emitReasm, .datagram (sl.gather h.fragNum.toNat), (t.setSlot s (sl.clear cfg.fragCap)).demote s⟩
  else ⟨.pending, .nothing, t.setSlot s sl⟩

/-- A hit on slot `s` disagrees with a reassembly in progress (R86). -/
def countMismatch (h : Header) (s : SlotIx) (t : DefragTable) : Bool :=
  decide ((t.slot s).count ≠ 0) && decide ((t.slot s).expected ≠ h.fragNum)

/-- An accepted hit (R87): the slot goes to the head and holds the packet's count. -/
def acceptHit (h : Header) (s : SlotIx) (t : DefragTable) : DefragTable :=
  (t.promote s).setSlot s ((t.slot s).setExpected h.fragNum)

/-- A miss (R88): slot `s`, the tail, is reinitialised for the packet's `Id`, whatever it held, and goes to the head. -/
def acceptMiss (cfg : Cfg) (h : Header) (s : SlotIx) (t : DefragTable) : DefragTable :=
  (t.setSlot s (Slot.fresh cfg.fragCap h)).promote s

/-- The slow path after the header check: lookup, hit or miss, store (R85-R91). -/
def slowPath (cfg : Cfg) (h : Header) (pay : Bytes) (t : DefragTable) : Answer :=
  match t.lookup h.id with
  | some s =>
    if countMismatch h s t then answerUnchanged .pvCountMismatch .nothing t
    else storeFragment cfg h pay s (acceptHit h s t)
  | none => storeFragment cfg h pay t.tail (acceptMiss cfg h t.tail t)

/-- The pseudocode of `REASM` (R78) over the table. -/
def reassemble (cfg : Cfg) (pkt : Bytes) (t : DefragTable) : Answer :=
  match lengthViolation cfg pkt with
  | some st => answerUnchanged st .nothing t
  | none =>
    let h := hdrDecode pkt
    let pay := bufRead pkt 12 h.len.toNat
    if h.fragNum.toNat ≤ 1 then answerUnchanged .emitFast (.datagram pay) t
    else if badHeader cfg h then answerUnchanged .pvBadHeader .nothing t
    else slowPath cfg h pay t

/-- `REASM` (R78): illegal on EGRESS (R57, R98); else one status in the order of R100, with the table and the datagram its rule
gives. -/
def execReasm (e : Engine) (pkt : Bytes) (s : State) : Host.Outcome State Fault Refusal :=
  whenValid s <|
    if e = .ingress then
      let a := reassemble s.cfg pkt s.table
      finish (encode (.reasm e pkt)) a.status a.output (s.setTable a.table)
    else raise (encode (.reasm e pkt)) .errIllegalOp s

end Sys2Proof.Machine
end

