-- ==== Sys2Proof/Machine/Dispatch.lean ====
section
/-! DEFINITION. One arm per row of the opcode table, each a direct call of its instruction's meaning. -/

namespace Sys2Proof.Machine

def exec (i : Instr) (s : State) : Host.Outcome State Fault Refusal :=
  match i with
  | .henc e id fragn fragnum len => Sys2Proof.Machine.execHenc e id fragn fragnum len s
  | .hdec e buf => Sys2Proof.Machine.execHdec e buf s
  | .align e n => Sys2Proof.Machine.execAlign e n s
  | .frag e dgram => Sys2Proof.Machine.execFrag e dgram s
  | .reasm e pkt => Sys2Proof.Machine.execReasm e pkt s

end Sys2Proof.Machine
end

