-- ==== Sys2Proof/Machine/Step.lean ====
section
/-! DEFINITION. One step: the host's next move is carried out (spec 00_scope R7, 70 R121, R122). With no move to carry out the
engines wait (60 R109, 92 D28). -/

namespace Sys2Proof.Machine

/-- A presented command: an illegal one ends with its status (60 R98), a legal one is executed; a legal word with another
command's operand record cannot be presented (30_encoding R56, entry 8). -/
def present (c : Command) (s : State) : Host.Outcome State Fault Refusal :=
  match decode c with
  | .ok i => exec i s
  | .error .illegalOp => execIllegal c s
  | .error .operandMismatch => .refused .operandMismatch

/-- One step of the machine. -/
def step (s : State) : Host.Outcome State Fault Refusal :=
  whenValid s <|
    match s.inputs with
    | [] => .next s
    | .command c :: rest =>
      if s.hasEnded c.engine then .refused (.runEnded c.engine) else present c (s.setInputs rest)
    | .reset r :: rest => .next (applyReset r (s.setInputs rest))
    | .host ev :: rest => .next (applyHost ev (s.setInputs rest))

/-- `s` with the command of a table word as the host's next move, its operand record zeros, on an engine that has the word and
whose run the host has not ended (entries 2 and 14). -/
def State.withFetchWord (s : State) (_nbits w : Nat) : State :=
  let c := tableCommand w
  { s with
    inputs := .command c :: s.inputs
    endedE := s.endedE && decide (c.engine ≠ .egress)
    endedI := s.endedI && decide (c.engine ≠ .ingress) }

end Sys2Proof.Machine
end

