-- ==== Sys2Proof/Machine/Assembler.lean ====
section
/-! DEFINITION. The assembler lines of spec 30_encoding R58, as abstract terms: byte expressions, lines, `.cw`, and the
pseudo-instruction SEND. Nothing of the machine rests on this file. -/

namespace Sys2Proof.Machine

/-- `<bytes>` (R58). -/
inductive ByteExpr where
  /-- `hex"..."`. -/
  | hex (b : Bytes)
  /-- `pat(n, k)`: byte `i` is `(i + k) mod 256`; `pat(n)` is `pat(n, 0)`. -/
  | pat (n k : Nat)
  /-- `fill(n, b)`. -/
  | fill (n : Nat) (b : Byte)
  /-- `Pk.j`: packet `j`, from 0, of the `k`-th FRAG of the program, from 1 (entry 16). -/
  | pkt (k j : Nat)
  /-- `a ++ b`. -/
  | cat (a b : ByteExpr)
  deriving DecidableEq, Repr

/-- A line of a program (R58). -/
inductive Line where
  | henc (e : Engine) (h : Header)
  | hdec (e : Engine) (b : ByteExpr)
  | align (e : Engine) (n : Nat)
  | frag (e : Engine) (b : ByteExpr)
  | reasm (e : Engine) (b : ByteExpr)
  /-- `.cw <byte>`: the raw command word with an empty operand record. -/
  | cw (e : Engine) (w : BitVec 8)
  deriving DecidableEq, Repr

/-- `pat(n, k)`. -/
def patBytes (n k : Nat) : Bytes := (List.range n).map fun i => BitVec.ofNat 8 (i + k)

/-- The packets a FRAG event presents. -/
def Event.packets (ev : Event) : List Bytes :=
  match ev.output with
  | .packets _ ps => ps
  | _ => []

/-- For each FRAG issued to EGRESS so far, in order, the packets it emitted. -/
def State.emitted (s : State) : List (List Bytes) :=
  (s.traceE.filter fun ev => ev.command.cw = 0x04#8).map Event.packets

/-- The bytes of an expression, given the packets emitted so far; none where `Pk.j` names no packet. -/
def ByteExpr.eval (emitted : List (List Bytes)) : ByteExpr → Option Bytes
  | .hex b => some b
  | .pat n k => some (patBytes n k)
  | .fill n b => some (List.replicate n b)
  | .pkt k j => if k = 0 then none else (emitted[k - 1]?).bind fun ps => ps[j]?
  | .cat a b => (a.eval emitted).bind fun x => (b.eval emitted).map fun y => x ++ y

/-- The binary form of a line (R58): its command word (R55) with its operand record (R56). -/
def Line.command (emitted : List (List Bytes)) : Line → Option Command
  | .henc e h => some (encode (.henc e h.id h.fragN h.fragNum h.len))
  | .hdec e b => (b.eval emitted).map fun x => encode (.hdec e x)
  | .align e n => some (encode (.align e n))
  | .frag e b => (b.eval emitted).map fun x => encode (.frag e x)
  | .reasm e b => (b.eval emitted).map fun x => encode (.reasm e x)
  | .cw e w => some ⟨e, w, .empty⟩

/-- Issue a command now and let its engine execute it. -/
def issue (c : Command) (s : State) : Host.Outcome State Fault Refusal :=
  step (s.setInputs (.command c :: s.inputs))

/-- Issue commands one after another, stopping at the first refusal. -/
def issueAll : List Command → State → Host.Outcome State Fault Refusal
  | [], s => .next s
  | c :: cs, s =>
    match issue c s with
    | .next t => issueAll cs t
    | .fault r => .fault r
    | .refused r => .refused r

/-- `SEND <bytes>` (R58): `E: FRAG <bytes>`, then `I: REASM Pk.j` for each packet it emits, in order: a loopback with the
identity cipher. -/
def send (dgram : Bytes) (s : State) : Host.Outcome State Fault Refusal :=
  match issue (encode (.frag .egress dgram)) s with
  | .next t => issueAll (((t.emitted.getLast?).getD []).map fun p => encode (.reasm .ingress p)) t
  | .fault r => .fault r
  | .refused r => .refused r

end Sys2Proof.Machine
end

