-- ==== Sys2Proof/Safety.lean ====
section
/-! DEFINITION. What claims speak of: fault-free runs (spec 60_exceptions R104), the invariants of the DefragTable (10_state
R31, R32), what a command leaves alone, the host's duties (60 R107, R110) and the obligations on configurations (10_state R29,
70 R116). -/

namespace Sys2Proof.Machine

/-! ## Runs -/

/-- No fault status stands in the observation trace (R104). -/
def State.faultFree (s : State) : Bool :=
  (s.traceE ++ s.traceI).all fun ev => ev.status.kind ≠ .fault

/-! ## Invariants -/

/-- The invariants of one slot (R22, R31): exactly `FRAG_CAP` entries, each at most 65535 bytes long; (a) `expected` is at most
`FRAG_CAP`; (b) a present entry stands below `expected`; (c) `expected = 0` only when empty; (d) it is not complete. -/
abbrev Slot.Ok (cfg : Cfg) (sl : Slot) : Prop :=
  sl.frag.length = cfg.fragCap
  ∧ (∀ j < sl.frag.length, ((sl.fragAt j).getD []).length ≤ 65535)
  ∧ sl.expected.toNat ≤ cfg.fragCap
  ∧ (∀ j < sl.frag.length, (sl.fragAt j).isSome = true → j < sl.expected.toNat)
  ∧ (sl.expected = 0 → sl.count = 0)
  ∧ sl.complete = false

/-- The invariants of the table: every slot's; `ORDER` is a permutation of the slot indices (R32); two slots hold the same `id`
only if it is 0 (R85). -/
abbrev DefragTable.Ok (cfg : Cfg) (t : DefragTable) : Prop :=
  (∀ s : SlotIx, (t.slot s).Ok cfg)
  ∧ t.order.Perm [0, 1, 2]
  ∧ (∀ s s' : SlotIx, s ≠ s' → (t.slot s).id = (t.slot s').id → (t.slot s).id = 0)

/-- The invariant of the machine: a legal configuration (R28) and a table that meets its invariants. -/
abbrev State.Inv (s : State) : Prop := s.cfg.valid = true ∧ s.table.Ok s.cfg

/-! ## What a command leaves alone -/

/-- The other engine. -/
def otherEngine : Engine → Engine
  | .egress => .ingress
  | .ingress => .egress

/-- The only thing observed between `s` and `t` is `ev`, on its command's engine; configuration, the host's remaining moves, the
seeds drawn and the ended runs are as before. The block's state, `ID` and the DefragTable, is not spoken of. -/
abbrev Observed (ev : Event) (s t : State) : Prop :=
  t.trace ev.command.engine = s.trace ev.command.engine ++ [ev]
  ∧ t.trace (otherEngine ev.command.engine) = s.trace (otherEngine ev.command.engine)
  ∧ t.cfg = s.cfg ∧ t.draws = s.draws ∧ t.inputs = s.inputs ∧ t.endedE = s.endedE ∧ t.endedI = s.endedI

/-- The block's state is as before. -/
abbrev BlockSame (s t : State) : Prop := t.id = s.id ∧ t.table = s.table

/-! ## The host -/

/-- What R107 asks of the host on a status. -/
inductive HostDuty where
  /-- Take the result, or send the packets, or write the datagram, and go on. -/
  | consume
  /-- Log, drop, continue: every `PV_*`. -/
  | logAndContinue
  /-- Terminate: every `FR_*` and `ERR_*`. -/
  | terminate
  deriving DecidableEq, Repr

/-- The duty a status puts on the host (R107). -/
def Status.duty (st : Status) : HostDuty :=
  match st.kind with
  | .success => .consume
  | .protocolViolation => .logAndContinue
  | .fault => .terminate

/-- A move that a host which keeps its duties may make in a run: no command to an engine whose run it has ended (R107, R110),
and after a fault status no command at all (R107). A restarted host is a new run, with traces of its own. -/
def hostMayIssue (s : State) (inp : Input) : Bool :=
  match inp with
  | .command c => s.faultFree && !s.hasEnded c.engine
  | .reset _ => true
  | .host _ => true

end Sys2Proof.Machine

namespace Sys2Proof

/-- R29(a): no datagram the egress input accepts needs more than 255 fragments. -/
def Cfg.fitsCount (c : Cfg) : Prop := Machine.ceilDiv c.maxDgram c.maxPay ≤ 255

/-- R29(b), R116(5): a receiver with the same block size can hold every datagram the sender fragments. -/
def Cfg.fitsReceiver (sender receiver : Cfg) : Prop :=
  sender.block = receiver.block ∧ Machine.ceilDiv sender.maxDgram sender.maxPay ≤ receiver.fragCap

/-- R29(c): the receiver's floor passes every packet a conforming sender emits. -/
def Cfg.fitsFloor (c : Cfg) : Prop := c.minPay ≤ Machine.alignUp 13 c.block - 12

end Sys2Proof
end

