-- ==== Sys2Proof/Certificates/Slice0/Obligations.lean ====
section
/-! DEFINITION. The statements for the provers, each from the rules of the spec its docstring names. -/

open Sys2Proof Sys2Proof.Machine

/-! ## Encodings -/

/-- R54-R57: a command decodes to an instruction exactly when it is that instruction's encoding and the instruction is one the
opcode map has. Read from right to left it is the round trip, from left to right it says each command has one meaning. -/
def Obligations.DecodesExactlyWhatIsEncoded : Prop :=
  ∀ (c : Command) (i : Instr), decode c = .ok i ↔ i.wf = true ∧ encode i = c

/-- R55, R57: the illegal commands are the words outside 0x01 .. 0x05, FRAG's on INGRESS and REASM's on EGRESS, whatever the
operand record. -/
def Obligations.IllegalCommandsAreTheRest : Prop :=
  ∀ c : Command, decode c = .error .illegalOp ↔
    (c.cw.toNat = 0 ∨ 6 ≤ c.cw.toNat ∨ (c.cw.toNat = 4 ∧ c.engine = .ingress) ∨ (c.cw.toNat = 5 ∧ c.engine = .egress))

/-- R55: sample words, written out bit by bit. -/
def Obligations.SampleWordsDecode : Prop :=
  decode ⟨.ingress, 0b00000001#8, .fields ⟨1, 5, 2, 0⟩⟩ = .ok (.henc .ingress 1 5 2 0)
  ∧ decode ⟨.egress, 0b00000010#8, .bytes [1, 2]⟩ = .ok (.hdec .egress [1, 2])
  ∧ decode ⟨.egress, 0b00000011#8, .natural 479⟩ = .ok (.align .egress 479)
  ∧ decode ⟨.egress, 0b00000100#8, .bytes [0xaa]⟩ = .ok (.frag .egress [0xaa])
  ∧ decode ⟨.ingress, 0b00000101#8, .bytes []⟩ = .ok (.reasm .ingress [])
  ∧ decode ⟨.ingress, 0b00000100#8, .bytes [0xaa]⟩ = .error .illegalOp
  ∧ decode ⟨.egress, 0b00000110#8, .empty⟩ = .error .illegalOp

/-- R61: the header codec is a bijection between field tuples and 12-byte values. -/
def Obligations.HeaderCodecIsABijection : Prop :=
  (∀ h : Header, (hdrEncode h).length = 12 ∧ hdrDecode (hdrEncode h) = h)
  ∧ (∀ b : Bytes, b.length = 12 → hdrEncode (hdrDecode b) = b)

/-! ## Steps -/

/-- A step whose next move is a command that decodes to `i`, on an engine whose run is not ended, is `exec` of `i` at the state
with the move taken. -/
def Obligations.StepRunsTheDecodedCommand : Prop :=
  ∀ (s : State) (c : Command) (rest : List Input) (i : Instr),
    s.cfg.valid = true → s.inputs = .command c :: rest → s.hasEnded c.engine = false → decode c = .ok i →
      step s = exec i (s.setInputs rest)

/-- R98: an illegal command word, or a word on the wrong engine, ends with `ERR_ILLEGAL_OP` whatever its operand record, writes
no state and emits nothing. -/
def Obligations.IllegalCommandChangesNothing : Prop :=
  ∀ (s : State) (e : Engine) (cw : BitVec 8) (o : Operand) (rest : List Input),
    s.cfg.valid = true → s.inputs = .command ⟨e, cw, o⟩ :: rest → s.hasEnded e = false →
    (cw.toNat = 0 ∨ 6 ≤ cw.toNat ∨ (cw.toNat = 4 ∧ e = .ingress) ∨ (cw.toNat = 5 ∧ e = .egress)) →
      ∃ t, step s = .next t ∧ Observed ⟨⟨e, cw, o⟩, .errIllegalOp, .nothing⟩ (s.setInputs rest) t ∧ BlockSame s t

/-- R28, R12(c): exactly the instances outside the legal ranges are refused for their configuration, by every step and by every
command. -/
def Obligations.InvalidConfigurationIsRefused : Prop :=
  ∀ s : State,
    ((s.cfg.block = 0 ∨ s.cfg.maxPay = 0 ∨ 65535 < s.cfg.maxPay ∨ s.cfg.fragCap = 0 ∨ 255 < s.cfg.fragCap
        ∨ s.cfg.nslots ≠ 3 ∨ s.cfg.maxDgram = 0) ↔ step s = .refused .invalidConfig)
    ∧ (step s = .refused .invalidConfig → ∀ i : Instr, exec i s = .refused .invalidConfig)

/-- R7, R122, R124: every command, on either engine and with any operands, completes in one step with one status; it shows one
event and changes nothing of the configuration, of the other engine's trace or of the host's remaining moves. -/
def Obligations.EveryCommandCompletes : Prop :=
  ∀ (i : Instr) (s : State), s.cfg.valid = true →
    ∃ t ev, exec i s = .next t ∧ ev.command = encode i ∧ Observed ev s t

/-- R109, R123 and the model's choice (entry 2): with no move of the host to carry out, the engines wait and nothing changes. -/
def Obligations.WithoutInputTheEnginesWait : Prop :=
  ∀ s : State, s.cfg.valid = true → s.inputs = [] → step s = .next s

/-- The model's choice (entry 8): a legal command word with another command's operand record, which R56 says cannot be presented, is
refused by name. -/
def Obligations.MismatchedOperandIsRefused : Prop :=
  ∀ (s : State) (c : Command) (rest : List Input), s.cfg.valid = true → s.inputs = .command c :: rest →
    s.hasEnded c.engine = false →
    (step s = .refused .operandMismatch ↔
      ((c.cw.toNat = 1 ∧ ∀ h, c.operand ≠ .fields h) ∨ (c.cw.toNat = 3 ∧ ∀ n, c.operand ≠ .natural n)
        ∨ ((c.cw.toNat = 2 ∨ (c.cw.toNat = 4 ∧ c.engine = .egress) ∨ (c.cw.toNat = 5 ∧ c.engine = .ingress))
            ∧ ∀ b, c.operand ≠ .bytes b)))

/-! ## HeaderCodec and AlignmentMath -/

/-- R59, R47: HENC on either engine ends with `OK` and the 12 bytes: byte k is `id[8k+7:8k]` for k < 8, byte 8 is `fragn`, byte
9 `fragnum`, bytes 10 and 11 `len[7:0]` and `len[15:8]`; no field is checked; no state is written. -/
def Obligations.HencEncodesTheFields : Prop :=
  ∀ (e : Engine) (id : BitVec 64) (fn fnum : BitVec 8) (ln : BitVec 16) (s : State), s.cfg.valid = true →
    ∃ t, exec (.henc e id fn fnum ln) s = .next t ∧ BlockSame s t
      ∧ Observed ⟨⟨e, 0x01#8, .fields ⟨id, fn, fnum, ln⟩⟩, .ok,
          .hdr ([id.extractLsb' 0 8, id.extractLsb' 8 8, id.extractLsb' 16 8, id.extractLsb' 24 8, id.extractLsb' 32 8,
                 id.extractLsb' 40 8, id.extractLsb' 48 8, id.extractLsb' 56 8, fn, fnum, ln.extractLsb' 0 8,
                 ln.extractLsb' 8 8])⟩ s t

/-- R60, R48: HDEC on either engine ends with `ERR_SHORT_BUFFER` on fewer than 12 bytes, else with `OK` and the four fields of
the first 12 bytes, little-endian; no field is checked; no state is written. -/
def Obligations.HdecDecodesTheFields : Prop :=
  ∀ (e : Engine) (b : Bytes) (s : State), s.cfg.valid = true →
    ∃ t, exec (.hdec e b) s = .next t ∧ BlockSame s t
      ∧ (b.length < 12 → Observed ⟨⟨e, 0x02#8, .bytes b⟩, .errShortBuffer, .nothing⟩ s t)
      ∧ (12 ≤ b.length → ∃ h : Header, Observed ⟨⟨e, 0x02#8, .bytes b⟩, .ok, .fields h⟩ s t
          ∧ h.id.toNat = ∑ k ∈ Finset.range 8, (b.getD k 0).toNat * 256 ^ k
          ∧ h.fragN = b.getD 8 0 ∧ h.fragNum = b.getD 9 0
          ∧ h.len.toNat = (b.getD 10 0).toNat + 256 * (b.getD 11 0).toNat)

/-- R63, R64: ALIGN on either engine ends with `OK` and the smallest multiple of `BLOCK` that is at least `n`; no state is
written. -/
def Obligations.AlignGivesTheSmallestMultiple : Prop :=
  ∀ (e : Engine) (n : Nat) (s : State), s.cfg.valid = true →
    ∃ t m, exec (.align e n) s = .next t ∧ BlockSame s t ∧ Observed ⟨⟨e, 0x03#8, .natural n⟩, .ok, .natural m⟩ s t
      ∧ m = (n + s.cfg.block - 1) / s.cfg.block * s.cfg.block
      ∧ s.cfg.block ∣ m ∧ n ≤ m ∧ ∀ m', s.cfg.block ∣ m' → n ≤ m' → m ≤ m'

/-- R65: `align_up` is idempotent, at least its argument, less than one block above it, and a multiple of the block. -/
def Obligations.AlignUpLaws : Prop :=
  ∀ n B : Nat, 1 ≤ B →
    alignUp (alignUp n B) B = alignUp n B ∧ n ≤ alignUp n B ∧ alignUp n B < n + B ∧ alignUp n B % B = 0

/-- R66: `align_up` is monotone, takes one value on each interval `(kB, (k+1)B]`, and so is not injective for `B` of 2 or more. -/
def Obligations.AlignUpMonotoneNotInjective : Prop :=
  (∀ n n' B : Nat, 1 ≤ B → n ≤ n' → alignUp n B ≤ alignUp n' B)
  ∧ (∀ n k B : Nat, 1 ≤ B → k * B < n → n ≤ (k + 1) * B → alignUp n B = (k + 1) * B)
  ∧ (∀ B : Nat, 2 ≤ B → ∃ n n', n ≠ n' ∧ alignUp n B = alignUp n' B)

/-! ## Fragmenter -/

/-- R67-R72: FRAG, on every input. On INGRESS it is illegal. On EGRESS: `FR_EMPTY`, else `FR_TOO_LONG`, else `FR_TOO_MANY`, each with
nothing emitted and `ID` kept; else `OK`, `fnum` packets, packet k being the header `(ID, k, fnum, L)`, the bytes
`dgram[k·plen : k·plen + L]` and zeros up to the block, and `ID + 1` modulo 2^64. The DefragTable is not touched. -/
def Obligations.FragSplitsTheDatagram : Prop :=
  ∀ (e : Engine) (d : Bytes) (s : State), s.cfg.valid = true →
    let n := d.length
    let fnum := (n + s.cfg.maxPay - 1) / s.cfg.maxPay
    let plen := (n + fnum - 1) / fnum
    let pkt := fun k : Nat =>
      let L := min plen (n - k * plen)
      hdrEncode ⟨s.id, BitVec.ofNat 8 k, BitVec.ofNat 8 fnum, BitVec.ofNat 16 L⟩ ++ (d.drop (k * plen)).take L
        ++ List.replicate ((12 + L + s.cfg.block - 1) / s.cfg.block * s.cfg.block - (12 + L)) 0
    let answer : Status × Output × BitVec 64 :=
      if e = .ingress then (.errIllegalOp, .nothing, s.id)
      else if n = 0 then (.frEmpty, .nothing, s.id)
      else if s.cfg.maxDgram < n then (.frTooLong, .nothing, s.id)
      else if 255 < fnum then (.frTooMany, .nothing, s.id)
      else (.ok, .packets fnum ((List.range fnum).map pkt), s.id + 1)
    ∃ t, exec (.frag e d) s = .next t ∧ t.id = answer.2.2 ∧ t.table = s.table
      ∧ Observed ⟨⟨e, 0x04#8, .bytes d⟩, answer.1, answer.2.1⟩ s t

/-- R75: the fragment-length lemma, of the count and size FRAG uses and of the headers it builds: (a) `plen ≤ MAX_PAY ≤ 65535`; (b)
every fragment but the last is `plen` long and the last holds the rest, none empty; (c) the lengths add up to `n`; (d) every header
built has `FragN = k < FragNum = fnum`, `FragNum ≥ 1` and `Len = L_k ≤ MAX_PAY`. -/
def Obligations.FragmentLengths : Prop :=
  ∀ (cfg : Cfg) (d : Bytes), cfg.valid = true → 1 ≤ d.length →
    let n := d.length
    let fnum := fragCount cfg n
    let plen := fragSize cfg n
    let L := fun k : Nat => min plen (n - k * plen)
    plen ≤ cfg.maxPay ∧ cfg.maxPay ≤ 65535 ∧ 1 ≤ fnum ∧ (fnum - 1) * plen < n ∧ n ≤ fnum * plen
    ∧ (∀ k < fnum - 1, L k = plen) ∧ L (fnum - 1) = n - (fnum - 1) * plen ∧ (∀ k < fnum, 1 ≤ L k ∧ L k ≤ plen)
    ∧ ∑ k ∈ Finset.range fnum, L k = n
    ∧ (fnum ≤ 255 → ∀ (id : BitVec 64), ∀ k < fnum, hdrDecode (fragPacket cfg id d k) =
        ⟨id, BitVec.ofNat 8 k, BitVec.ofNat 8 fnum, BitVec.ofNat 16 (L k)⟩
        ∧ (BitVec.ofNat 8 k).toNat = k ∧ (BitVec.ofNat 8 fnum).toNat = fnum ∧ (BitVec.ofNat 16 (L k)).toNat = L k)

/-- R76: the packets of a FRAG that ends with `OK` are `ceil_div(n, MAX_PAY)`; their payloads, read from their own headers and put
together in order, are the datagram, and their `Len`s add up to its length; a datagram of at most `MAX_PAY` bytes gives one
packet, with `FragNum = 1`, and a reassembler of the same block size whose floor it passes delivers it on the fast path. -/
def Obligations.FragmentsReproduceTheDatagram : Prop :=
  ∀ (d : Bytes) (s t : State) (c : Command) (count : Nat) (ps : List Bytes),
    exec (.frag .egress d) s = .next t → t.traceE = s.traceE ++ [⟨c, .ok, .packets count ps⟩] →
      count = (d.length + s.cfg.maxPay - 1) / s.cfg.maxPay ∧ ps.length = count
      ∧ (ps.map fun p => bufRead p 12 (hdrDecode p).len.toNat).flatten = d
      ∧ (ps.map fun p => (hdrDecode p).len.toNat).sum = d.length
      ∧ (d.length ≤ s.cfg.maxPay → ∃ p, ps = [p] ∧ (hdrDecode p).fragNum = 1
          ∧ ∀ r : State, r.cfg.valid = true → r.cfg.block = s.cfg.block → 12 + r.cfg.minPay ≤ p.length →
            ∃ r', exec (.reasm .ingress p) r = .next r' ∧ BlockSame r r'
              ∧ Observed ⟨⟨.ingress, 0x05#8, .bytes p⟩, .emitFast, .datagram d⟩ r r')

/-- R38, R46, R50, R51, R71, R75(d): packet k of a FRAG that ends with `OK` carries the sequence number, `FragN = k` below
`FragNum = count`, and a `Len` of 1 to `MAX_PAY`; its length is `align_up(12 + Len, BLOCK)`, a multiple of `BLOCK`, with less
than a block of pad, all zeros. -/
def Obligations.EmittedPacketsAreWellFormed : Prop :=
  ∀ (d : Bytes) (s t : State) (c : Command) (count : Nat) (ps : List Bytes),
    exec (.frag .egress d) s = .next t → t.traceE = s.traceE ++ [⟨c, .ok, .packets count ps⟩] →
      ∀ k (hk : k < ps.length),
        let p := ps[k]
        let h := hdrDecode p
        h.id = s.id ∧ h.fragN.toNat = k ∧ h.fragNum.toNat = count ∧ k < count ∧ 1 ≤ h.len.toNat
        ∧ h.len.toNat ≤ s.cfg.maxPay ∧ p.length = alignUp (12 + h.len.toNat) s.cfg.block ∧ s.cfg.block ∣ p.length
        ∧ p.length - (12 + h.len.toNat) < s.cfg.block
        ∧ ∀ b ∈ p.drop (12 + h.len.toNat), b = 0

/-- R16: of all commands only a FRAG that ends with `OK` writes `ID`, and it adds 1 modulo 2^64; one that ends with a fault
status leaves it. -/
def Obligations.OnlySuccessfulFragAdvancesId : Prop :=
  ∀ (i : Instr) (s t : State) (ev : Event), exec i s = .next t → Observed ev s t →
    ((∃ d, i = .frag .egress d ∧ ev.status = .ok) → t.id = s.id + 1)
    ∧ ((¬ ∃ d, i = .frag .egress d ∧ ev.status = .ok) → t.id = s.id)

/-! ## Reassembler -/

/-- R79: a packet shorter than `12 + MIN_PAY` ends with `PV_SHORT`; nothing is written or emitted. -/
def Obligations.ReasmRejectsShortPackets : Prop :=
  ∀ (p : Bytes) (s : State), s.cfg.valid = true → p.length < 12 + s.cfg.minPay →
    ∃ t, exec (.reasm .ingress p) s = .next t ∧ BlockSame s t
      ∧ Observed ⟨⟨.ingress, 0x05#8, .bytes p⟩, .pvShort, .nothing⟩ s t

/-- R81: a packet that passes the floor ends with `PV_LENGTH` exactly when its length is not `align_up(12 + Len, BLOCK)` (a wrong
`Len` that implies the same block count is not caught), in particular when its length is not a multiple of `BLOCK`; nothing is
written or emitted then. -/
def Obligations.ReasmRejectsWrongLengths : Prop :=
  ∀ (p : Bytes) (s : State), s.cfg.valid = true → 12 + s.cfg.minPay ≤ p.length →
    ∃ t st out, exec (.reasm .ingress p) s = .next t ∧ Observed ⟨⟨.ingress, 0x05#8, .bytes p⟩, st, out⟩ s t
      ∧ (st = .pvLength ↔ p.length ≠ alignUp (12 + ((p.getD 10 0).toNat + 256 * (p.getD 11 0).toNat)) s.cfg.block)
      ∧ (¬ s.cfg.block ∣ p.length → st = .pvLength)
      ∧ (st = .pvLength → BlockSame s t ∧ out = .nothing)

/-- R82, R83: a packet that passes the length checks with `FragNum` of 0 or 1, whatever its `FragN`, ends with `EMIT_FAST`; the
datagram is its `Len` bytes after the header, whatever the pad; the table is not written. -/
def Obligations.ReasmFastPathDelivers : Prop :=
  ∀ (p : Bytes) (s : State), s.cfg.valid = true → lengthViolation s.cfg p = none → (hdrDecode p).fragNum.toNat ≤ 1 →
    (12 + (hdrDecode p).len.toNat ≤ p.length)
    ∧ ∃ t, exec (.reasm .ingress p) s = .next t ∧ BlockSame s t
      ∧ Observed ⟨⟨.ingress, 0x05#8, .bytes p⟩, .emitFast, .datagram ((p.drop 12).take (hdrDecode p).len.toNat)⟩ s t

/-- R84: on the slow path a `FragNum` above `FRAG_CAP`, or a `FragN` not below `FragNum`, ends with `PV_BAD_HEADER`, whether or not a
slot holds the `Id`; no slot is touched. -/
def Obligations.ReasmRejectsBadHeaders : Prop :=
  ∀ (p : Bytes) (s : State), s.cfg.valid = true → lengthViolation s.cfg p = none → 2 ≤ (hdrDecode p).fragNum.toNat →
    (s.cfg.fragCap < (hdrDecode p).fragNum.toNat ∨ (hdrDecode p).fragNum.toNat ≤ (hdrDecode p).fragN.toNat) →
    ∃ t, exec (.reasm .ingress p) s = .next t ∧ BlockSame s t
      ∧ Observed ⟨⟨.ingress, 0x05#8, .bytes p⟩, .pvBadHeader, .nothing⟩ s t

/-- R85, R86: a slow-path packet with a good header whose `Id` the head-most matching slot holds with fragments under another count
ends with `PV_COUNT_MISMATCH`; the slot is neither promoted nor written. -/
def Obligations.ReasmRejectsCountMismatch : Prop :=
  ∀ (p : Bytes) (s : State) (k : SlotIx) (before after : List SlotIx), s.cfg.valid = true →
    lengthViolation s.cfg p = none → 2 ≤ (hdrDecode p).fragNum.toNat → badHeader s.cfg (hdrDecode p) = false →
    s.table.order = before ++ k :: after → (∀ j ∈ before, (s.table.slot j).id ≠ (hdrDecode p).id) →
    (s.table.slot k).id = (hdrDecode p).id → (s.table.slot k).count ≠ 0 →
    (s.table.slot k).expected ≠ (hdrDecode p).fragNum →
    ∃ t, exec (.reasm .ingress p) s = .next t ∧ BlockSame s t
      ∧ Observed ⟨⟨.ingress, 0x05#8, .bytes p⟩, .pvCountMismatch, .nothing⟩ s t

/-- R85, R87, R89, R90: an accepted hit that leaves a fragment absent ends with `PENDING`: the head-most matching slot goes to the
head, holds the packet's count and its payload at `FragN` (a duplicate is replaced), and keeps its `id` and every other entry;
the other slots and `ID` are as before. -/
def Obligations.ReasmHitStoresTheFragment : Prop :=
  ∀ (p : Bytes) (s : State) (k : SlotIx) (before after : List SlotIx) (j : Nat), s.Inv →
    lengthViolation s.cfg p = none → 2 ≤ (hdrDecode p).fragNum.toNat → badHeader s.cfg (hdrDecode p) = false →
    s.table.order = before ++ k :: after → (∀ j ∈ before, (s.table.slot j).id ≠ (hdrDecode p).id) →
    (s.table.slot k).id = (hdrDecode p).id →
    ((s.table.slot k).count = 0 ∨ (s.table.slot k).expected = (hdrDecode p).fragNum) →
    j < (hdrDecode p).fragNum.toNat → j ≠ (hdrDecode p).fragN.toNat → (s.table.slot k).fragAt j = none →
    ∃ t, exec (.reasm .ingress p) s = .next t ∧ t.id = s.id
      ∧ Observed ⟨⟨.ingress, 0x05#8, .bytes p⟩, .pending, .nothing⟩ s t
      ∧ t.table.order = k :: (before ++ after)
      ∧ (∀ k', k' ≠ k → t.table.slot k' = s.table.slot k')
      ∧ (t.table.slot k).id = (hdrDecode p).id ∧ (t.table.slot k).expected = (hdrDecode p).fragNum
      ∧ (t.table.slot k).fragAt (hdrDecode p).fragN.toNat = some ((p.drop 12).take (hdrDecode p).len.toNat)
      ∧ ∀ j', j' ≠ (hdrDecode p).fragN.toNat → (t.table.slot k).fragAt j' = (s.table.slot k).fragAt j'

/-- R91: an accepted hit whose slot then holds every fragment ends with `EMIT_REASM`: the datagram is the payloads in index order;
the slot's fragments become absent, its `id` and `expected` stay, it goes to the tail; the other slots and `ID` are as before. -/
def Obligations.ReasmCompletesTheDatagram : Prop :=
  ∀ (p : Bytes) (s : State) (k : SlotIx) (before after : List SlotIx) (frags : List Bytes), s.Inv →
    lengthViolation s.cfg p = none → 2 ≤ (hdrDecode p).fragNum.toNat → badHeader s.cfg (hdrDecode p) = false →
    s.table.order = before ++ k :: after → (∀ j ∈ before, (s.table.slot j).id ≠ (hdrDecode p).id) →
    (s.table.slot k).id = (hdrDecode p).id →
    frags.length = (hdrDecode p).fragNum.toNat →
    (∀ j (hj : j < frags.length), j ≠ (hdrDecode p).fragN.toNat → (s.table.slot k).fragAt j = some frags[j]) →
    frags[(hdrDecode p).fragN.toNat]? = some ((p.drop 12).take (hdrDecode p).len.toNat) →
    (s.table.slot k).expected = (hdrDecode p).fragNum →
    ∃ t, exec (.reasm .ingress p) s = .next t ∧ t.id = s.id
      ∧ Observed ⟨⟨.ingress, 0x05#8, .bytes p⟩, .emitReasm, .datagram frags.flatten⟩ s t
      ∧ t.table.order = before ++ after ++ [k]
      ∧ (∀ k', k' ≠ k → t.table.slot k' = s.table.slot k')
      ∧ (t.table.slot k).id = (s.table.slot k).id ∧ (t.table.slot k).expected = (s.table.slot k).expected
      ∧ ∀ j, (t.table.slot k).fragAt j = none

/-- R88, R89, R93: an accepted packet whose `Id` no slot holds ends with `PENDING` and nothing else reported: the tail slot, whatever
it held, becomes the packet's with that one fragment and goes to the head; the other slots and `ID` are as before. -/
def Obligations.ReasmMissEvictsTheTail : Prop :=
  ∀ (p : Bytes) (s : State) (k : SlotIx) (front : List SlotIx), s.Inv →
    lengthViolation s.cfg p = none → 2 ≤ (hdrDecode p).fragNum.toNat → badHeader s.cfg (hdrDecode p) = false →
    (∀ j, (s.table.slot j).id ≠ (hdrDecode p).id) → s.table.order = front ++ [k] →
    ∃ t, exec (.reasm .ingress p) s = .next t ∧ t.id = s.id
      ∧ Observed ⟨⟨.ingress, 0x05#8, .bytes p⟩, .pending, .nothing⟩ s t
      ∧ t.table.order = k :: front
      ∧ (∀ k', k' ≠ k → t.table.slot k' = s.table.slot k')
      ∧ (t.table.slot k).id = (hdrDecode p).id ∧ (t.table.slot k).expected = (hdrDecode p).fragNum
      ∧ (t.table.slot k).fragAt (hdrDecode p).fragN.toNat = some ((p.drop 12).take (hdrDecode p).len.toNat)
      ∧ ∀ j, j ≠ (hdrDecode p).fragN.toNat → (t.table.slot k).fragAt j = none

/-- R100(4), R93: the one status of a REASM, as the first cause in order. -/
def Obligations.ReasmStatusIsTheFirstCause : Prop :=
  ∀ (p : Bytes) (s : State), s.Inv →
    let h := hdrDecode p
    let hit := s.table.order.find? fun k => (s.table.slot k).id == h.id
    let status : Status :=
      if p.length < 12 + s.cfg.minPay then .pvShort
      else if p.length ≠ alignUp (12 + h.len.toNat) s.cfg.block then .pvLength
      else if h.fragNum.toNat ≤ 1 then .emitFast
      else if s.cfg.fragCap < h.fragNum.toNat ∨ h.fragNum.toNat ≤ h.fragN.toNat then .pvBadHeader
      else match hit with
        | none => .pending
        | some k =>
          if (s.table.slot k).count ≠ 0 ∧ (s.table.slot k).expected ≠ h.fragNum then .pvCountMismatch
          else if ∀ j < h.fragNum.toNat, j ≠ h.fragN.toNat → ((s.table.slot k).fragAt j).isSome = true then .emitReasm
          else .pending
    ∃ t out, exec (.reasm .ingress p) s = .next t ∧ t.id = s.id
      ∧ Observed ⟨⟨.ingress, 0x05#8, .bytes p⟩, status, out⟩ s t

/-- R92: a REASM that ends with a `PV_*` status or with `EMIT_FAST` writes nothing. -/
def Obligations.ReasmRejectionWritesNothing : Prop :=
  ∀ (p : Bytes) (s t : State) (ev : Event), exec (.reasm .ingress p) s = .next t → Observed ev s t →
    (ev.status = .pvShort ∨ ev.status = .pvLength ∨ ev.status = .pvBadHeader ∨ ev.status = .pvCountMismatch
      ∨ ev.status = .emitFast) → BlockSame s t

/-- R95: a packet changes no slot but one that holds its `Id`, or, when none does, the tail. -/
def Obligations.ReasmTouchesOnlyItsOwnSlot : Prop :=
  ∀ (p : Bytes) (s t : State) (k : SlotIx), s.Inv → exec (.reasm .ingress p) s = .next t →
    t.table.slot k = s.table.slot k
    ∨ (s.table.slot k).id = (hdrDecode p).id
    ∨ ((∀ j, (s.table.slot j).id ≠ (hdrDecode p).id) ∧ s.table.order.getLast? = some k)

/-- R24, R25: of all commands only REASM changes `ORDER`, and only by moving one slot to the head or to the tail with the others in
their order; `ORDER` stays a permutation. -/
def Obligations.OrderChangesOnlyByOneMove : Prop :=
  ∀ (i : Instr) (s t : State), s.Inv → exec i s = .next t →
    t.table.order.Perm [0, 1, 2]
    ∧ (t.table.order = s.table.order
      ∨ ∃ p k before after, i = .reasm .ingress p ∧ s.table.order = before ++ k :: after
          ∧ (t.table.order = k :: (before ++ after) ∨ t.table.order = before ++ after ++ [k]))

/-- R33: a reassembled datagram is at most `FRAG_CAP · 65535` bytes long. -/
def Obligations.ReassembledLengthIsBounded : Prop :=
  ∀ (p d : Bytes) (s t : State) (c : Command), s.Inv → exec (.reasm .ingress p) s = .next t →
    Observed ⟨c, .emitReasm, .datagram d⟩ s t → d.length ≤ s.cfg.fragCap * 65535

/-- R94, R87: after a completion, while the slot still holds the `Id`, a slow-path packet of that `Id` with a good header starts a
new reassembly under its own count and ends with `PENDING`. -/
def Obligations.ReplayStartsANewReassembly : Prop :=
  ∀ (p q d : Bytes) (s t : State) (c : Command), s.Inv → (hdrDecode p).id ≠ 0 → exec (.reasm .ingress p) s = .next t →
    Observed ⟨c, .emitReasm, .datagram d⟩ s t → (hdrDecode q).id = (hdrDecode p).id →
    lengthViolation s.cfg q = none → 2 ≤ (hdrDecode q).fragNum.toNat → badHeader s.cfg (hdrDecode q) = false →
    ∃ u k, exec (.reasm .ingress q) t = .next u ∧ Observed ⟨⟨.ingress, 0x05#8, .bytes q⟩, .pending, .nothing⟩ t u
      ∧ u.table.order.head? = some k ∧ (u.table.slot k).id = (hdrDecode p).id
      ∧ (u.table.slot k).expected = (hdrDecode q).fragNum ∧ (u.table.slot k).count = 1

/-! ## Commands on the wrong engine, statuses, the trace -/

/-- R57, R98: FRAG addressed to INGRESS and REASM addressed to EGRESS end with `ERR_ILLEGAL_OP`, whatever the operand; no state is
written, nothing is emitted. -/
def Obligations.WrongEngineIsIllegal : Prop :=
  ∀ (b : Bytes) (s : State), s.cfg.valid = true →
    (∃ t, exec (.frag .ingress b) s = .next t ∧ BlockSame s t
      ∧ Observed ⟨⟨.ingress, 0x04#8, .bytes b⟩, .errIllegalOp, .nothing⟩ s t)
    ∧ (∃ t, exec (.reasm .egress b) s = .next t ∧ BlockSame s t
      ∧ Observed ⟨⟨.egress, 0x05#8, .bytes b⟩, .errIllegalOp, .nothing⟩ s t)

/-- R102: every status other than `OK`, `EMIT_FAST`, `EMIT_REASM` and `PENDING` comes with no state written and no output. -/
def Obligations.NonSuccessIsPrecise : Prop :=
  ∀ (i : Instr) (s t : State) (ev : Event), exec i s = .next t → Observed ev s t → ev.status.kind ≠ .success →
    BlockSame s t ∧ ev.output = .nothing

/-- R39, R102: a REASM presents one datagram on `EMIT_FAST` and `EMIT_REASM`, and nothing on any other status. -/
def Obligations.ReasmPresentsADatagramOnlyOnEmit : Prop :=
  ∀ (p : Bytes) (s t : State) (ev : Event), exec (.reasm .ingress p) s = .next t → Observed ev s t →
    ((ev.status = .emitFast ∨ ev.status = .emitReasm) → ∃ d, ev.output = .datagram d)
    ∧ (¬ (ev.status = .emitFast ∨ ev.status = .emitReasm) → ev.output = .nothing)

/-- R97: the codes of the closed status table, no two alike. -/
def Obligations.StatusCodesAreTheTable : Prop :=
  (∀ a b : Status, a.code = b.code → a = b)
  ∧ ([Status.ok, .emitFast, .emitReasm, .pending, .pvShort, .pvLength, .pvBadHeader, .pvCountMismatch, .frEmpty, .frTooLong,
      .frTooMany, .errIllegalOp, .errShortBuffer].map Status.code
      = [0x00, 0x01, 0x02, 0x03, 0x10, 0x11, 0x12, 0x13, 0x20, 0x21, 0x22, 0x30, 0x31])

/-- No step removes anything from an observation trace, so a fault status once recorded stays, as R104 asks of recorded faults. That a
reset keeps the whole trace, and not the recorded faults only, is the model's choice (entry 15); that the traces stand in `State` at
all is too (entry 3). -/
def Obligations.TracesOnlyGrow : Prop :=
  ∀ s t : State, step s = .next t →
    (∃ e, t.traceE = s.traceE ++ e) ∧ (∃ e, t.traceI = s.traceI ++ e) ∧ (s.faultFree = false → t.faultFree = false)

/-! ## Configuration, reset, the host -/

/-- R27, R114: no step, command or reset, writes a configuration register. -/
def Obligations.ConfigurationNeverChanges : Prop :=
  ∀ s t : State, step s = .next t → t.cfg = s.cfg

/-- R113, R111, R114: `RST_I` and power-on reset put every slot at `id = 0`, `expected = 0`, all fragments absent, and `ORDER` at
`[0, 1, 2]`; `RST_I` leaves `ID` alone. -/
def Obligations.IngressResetState : Prop :=
  ∀ (s : State) (r : ResetEvent) (rest : List Input), s.cfg.valid = true → s.inputs = .reset r :: rest →
    (r = .rstI ∨ r = .powerOn) →
    ∃ t, step s = .next t ∧ t.cfg = s.cfg ∧ (r = .rstI → t.id = s.id)
      ∧ t.table.order = [0, 1, 2]
      ∧ ∀ k, (t.table.slot k).id = 0 ∧ (t.table.slot k).expected = 0 ∧ ∀ j, (t.table.slot k).fragAt j = none

/-- R111, R112, R114: `RST_E` completes, leaves INGRESS and the configuration alone; what `ID` becomes is a free draw, of which
nothing is said. The model's choice (entry 15): the observation traces and the host's remaining moves stay. -/
def Obligations.EgressResetLeavesIngress : Prop :=
  ∀ (s : State) (rest : List Input), s.cfg.valid = true → s.inputs = .reset .rstE :: rest →
    ∃ t, step s = .next t ∧ t.cfg = s.cfg ∧ t.table = s.table ∧ t.inputs = rest ∧ t.traceE = s.traceE
      ∧ t.traceI = s.traceI ∧ t.endedI = s.endedI

/-- R113, R114: right after power-on, whatever the configuration, every slot is empty with `id = 0`, `ORDER` is `[0, 1, 2]`, and
nothing has been observed; `State.reset` is that state for the reference configuration (the model's choice, entry 4). -/
def Obligations.PowerOnState : Prop :=
  (∀ cfg : Cfg, (State.powerOn cfg).cfg = cfg ∧ (State.powerOn cfg).table.order = [0, 1, 2]
    ∧ (State.powerOn cfg).traceE = [] ∧ (State.powerOn cfg).traceI = []
    ∧ ∀ k, ((State.powerOn cfg).table.slot k).id = 0 ∧ ((State.powerOn cfg).table.slot k).expected = 0
        ∧ ((State.powerOn cfg).table.slot k).frag.length = cfg.fragCap
        ∧ ∀ j, ((State.powerOn cfg).table.slot k).fragAt j = none)
  ∧ State.reset = State.powerOn { block := 16, maxPay := 500, minPay := 1, fragCap := 32, nslots := 3, maxDgram := 8192 }

/-- R106, R107, R110, R123 as the model represents them (entry 9): no host event changes the block's state; a malformed-output
rejection ends INGRESS's run only, a fatal classification both; and a command to an engine whose run is ended is refused, never
run. -/
def Obligations.HostEndsRuns : Prop :=
  (∀ (s : State) (ev : HostEvent) (rest : List Input), s.cfg.valid = true → s.inputs = .host ev :: rest →
    ∃ t, step s = .next t ∧ BlockSame s t ∧ t.cfg = s.cfg ∧ t.inputs = rest
      ∧ (ev = .transientTransportError → t.endedE = s.endedE ∧ t.endedI = s.endedI)
      ∧ (ev = .malformedOutputRejection → t.endedE = s.endedE ∧ t.endedI = true)
      ∧ (ev = .fatal → t.endedE = true ∧ t.endedI = true))
  ∧ (∀ (s : State) (c : Command) (rest : List Input), s.cfg.valid = true → s.inputs = .command c :: rest →
    s.hasEnded c.engine = true → step s = .refused (.runEnded c.engine))

/-! ## Obligations on configurations -/

/-- R29(a): where `ceil_div(MAX_DGRAM, MAX_PAY) ≤ 255`, no FRAG ends with `FR_TOO_MANY`. -/
def Obligations.FittingCountNeverTooMany : Prop :=
  ∀ (e : Engine) (d : Bytes) (s t : State) (ev : Event), s.cfg.fitsCount → exec (.frag e d) s = .next t →
    Observed ev s t → ev.status ≠ .frTooMany

/-- R29(c), R81: where the sender's and the receiver's `BLOCK` agree and the receiver's `MIN_PAY` is at most
`align_up(13, BLOCK) - 12`, the receiver rejects no packet the sender emits as `PV_SHORT` or `PV_LENGTH`. -/
def Obligations.EmittedPacketsPassTheFloor : Prop :=
  ∀ (d : Bytes) (s t : State) (c : Command) (count : Nat) (ps : List Bytes) (receiver : Cfg),
    exec (.frag .egress d) s = .next t → t.traceE = s.traceE ++ [⟨c, .ok, .packets count ps⟩] →
    receiver.block = s.cfg.block → receiver.fitsFloor → ∀ p ∈ ps, lengthViolation receiver p = none

/-! ## The invariant, and the machine over several commands -/

/-- R31, R32, R85: at power-on, whatever the legal configuration, the invariant holds; so it does at `State.reset`, whose reference
configuration (the model's choice, entry 4) is legal. -/
def Obligations.PowerOnMeetsTheInvariant : Prop :=
  (∀ cfg : Cfg, cfg.valid = true → (State.powerOn cfg).Inv) ∧ State.reset.Inv

/-- R31, R32, R85: every step, from every state that meets it, keeps the invariant: each slot has exactly `FRAG_CAP` entries of at
most 65535 bytes, `expected ≤ FRAG_CAP`, every present entry below `expected`, `expected = 0` only when empty, no slot complete;
`ORDER` a permutation; two slots with the same `id` only if it is 0. -/
def Obligations.StepKeepsTheInvariant : Prop :=
  ∀ s t : State, s.Inv → step s = .next t → t.Inv

/-- R30: HENC, HDEC and ALIGN read only their operands and the configuration and write no state; FRAG reads and writes only `ID`;
REASM reads and writes only the DefragTable. Two states that agree on the configuration, and on `ID` for a FRAG or the table for a
REASM, and differ anywhere else, show the same event and the same written state. -/
def Obligations.CommandsReadAndWriteOnlyTheirOwnState : Prop :=
  ∀ (i : Instr) (s s' t : State) (ev : Event), s.cfg = s'.cfg → (∀ d, i = .frag .egress d → s.id = s'.id) →
    (∀ p, i = .reasm .ingress p → s.table = s'.table) → exec i s = .next t → Observed ev s t →
    ∃ t', exec i s' = .next t' ∧ Observed ev s' t'
      ∧ (∀ d, i = .frag .egress d → t'.id = t.id) ∧ ((∀ d, i ≠ .frag .egress d) → t'.id = s'.id)
      ∧ (∀ p, i = .reasm .ingress p → t'.table = t.table) ∧ ((∀ p, i ≠ .reasm .ingress p) → t'.table = s'.table)

/-- R43: an EGRESS command and an INGRESS command may be carried out in either order: if two steps answer a state one way, they
answer the same state, with the same traces, the other way. -/
def Obligations.EnginesCommute : Prop :=
  ∀ (s t : State) (c d : Command) (rest : List Input), c.engine = .egress → d.engine = .ingress →
    (core.run 2 (s.setInputs (.command c :: .command d :: rest)) = .next t ↔
      core.run 2 (s.setInputs (.command d :: .command c :: rest)) = .next t)

/-- R76, R83, R89, R91: a datagram FRAG splits into two to `FRAG_CAP` packets is given back whole, whatever order its packets arrive
in, by a table that holds no slot of its `Id`: every REASM but the last ends with `PENDING` and the last with `EMIT_REASM` and the
datagram. -/
def Obligations.AnyArrivalOrderDelivers : Prop :=
  ∀ (d : Bytes) (s t : State) (c : Command) (count : Nat) (ps : List Bytes) (arrival : List Nat), s.Inv → s.cfg.fitsFloor →
    s.endedI = false → (∀ k, (s.table.slot k).id ≠ s.id) →
    exec (.frag .egress d) s = .next t → t.traceE = s.traceE ++ [⟨c, .ok, .packets count ps⟩] →
    2 ≤ count → count ≤ s.cfg.fragCap → arrival.Perm (List.range count) →
    ∃ u pendings last, issueAll (arrival.map fun k => encode (.reasm .ingress (ps.getD k []))) t = .next u
      ∧ u.traceI = s.traceI ++ pendings ++ [last]
      ∧ pendings.length + 1 = count ∧ (∀ ev ∈ pendings, ev.status = .pending)
      ∧ last.status = .emitReasm ∧ last.output = .datagram d

/-- R58, R76, R29: SEND, the loopback with the identity cipher, gives back every datagram FRAG accepts under a configuration that meets
its obligations, when no slot holds the `Id`: the last thing INGRESS shows is the datagram, and `ID` has advanced by one. -/
def Obligations.LoopbackDelivers : Prop :=
  ∀ (d : Bytes) (s : State), s.Inv → s.cfg.fitsFloor → s.cfg.fitsReceiver s.cfg → s.endedE = false → s.endedI = false →
    (∀ k, (s.table.slot k).id ≠ s.id) → 1 ≤ d.length → d.length ≤ s.cfg.maxDgram →
    ∃ u last, send d s = .next u ∧ u.id = s.id + 1 ∧ u.traceI.getLast? = some last
      ∧ (last.status = .emitFast ∨ last.status = .emitReasm) ∧ last.output = .datagram d
end

