-- ==== Sys2Proof/Laws/Bytes.lean ====
section
/-! SUPPORT. Lemmas about byte sequences, little-endian integers, `align_up` and the wire header and packet. -/

namespace Sys2Proof.Machine

/-! ## Reads -/

theorem bufRead_append_left (a b : Bytes) (n : Nat) (h : n ≤ a.length) : bufRead (a ++ b) 0 n = a.take n := by
  simp [bufRead, List.take_append_of_le_length h]

theorem bufRead_append_right (a b : Bytes) (o n : Nat) (h : a.length ≤ o) :
    bufRead (a ++ b) o n = bufRead b (o - a.length) n := by
  simp [bufRead, List.drop_append, List.drop_eq_nil_of_le h]

theorem bufRead_length (b : Bytes) (o n : Nat) (h : o + n ≤ b.length) : (bufRead b o n).length = n := by
  simp [bufRead]; omega

/-! ## Little-endian integers -/

@[simp] theorem bytesLE_length (v k : Nat) : (bytesLE v k).length = k := by
  induction k generalizing v with
  | zero => rfl
  | succ k ih => simp [bytesLE, ih]

/-- What was written little-endian reads back, modulo the width. -/
theorem leNat_bytesLE (v k : Nat) : leNat (bytesLE v k) = v % 256 ^ k := by
  induction k generalizing v with
  | zero => simp [bytesLE, leNat, Nat.mod_one]
  | succ k ih =>
    have hp : 256 ^ (k + 1) = 256 * 256 ^ k := by rw [pow_succ, Nat.mul_comm]
    rw [bytesLE, leNat, ih, BitVec.toNat_ofNat, hp, Nat.mod_mul]

theorem leNat_lt (b : Bytes) : leNat b < 256 ^ b.length := by
  induction b with
  | nil => simp [leNat]
  | cons x xs ih =>
    have := x.isLt
    simp only [leNat, List.length_cons, pow_succ]
    omega

/-- What reads as an integer writes back to the same bytes. -/
theorem bytesLE_leNat (b : Bytes) : bytesLE (leNat b) b.length = b := by
  induction b with
  | nil => rfl
  | cons x xs ih =>
    have hx := x.isLt
    have hd : (x.toNat + 256 * leNat xs) / 256 = leNat xs := by omega
    have hm : BitVec.ofNat 8 (x.toNat + 256 * leNat xs) = x := by
      apply BitVec.eq_of_toNat_eq
      rw [BitVec.toNat_ofNat]
      omega
    simp [bytesLE, leNat, hd, hm, ih]

/-- A byte past the end reads as zero; the little-endian integer is the sum of R9. -/
theorem leNat_eq_sum (b : Bytes) : leNat b = ∑ k ∈ Finset.range b.length, (b.getD k 0).toNat * 256 ^ k := by
  induction b with
  | nil => simp [leNat]
  | cons x xs ih =>
    rw [leNat, List.length_cons, Finset.sum_range_succ', ih, Finset.mul_sum]
    simp [pow_succ, Nat.add_comm, Nat.mul_comm, Nat.mul_assoc]

/-! ## align_up -/

theorem ceilDiv_le_iff {a b q : Nat} (hb : 1 ≤ b) : ceilDiv a b ≤ q ↔ a ≤ q * b := by
  rw [ceilDiv, Nat.div_le_iff_le_mul_add_pred hb, Nat.mul_comm]
  omega

theorem lt_ceilDiv_iff {a b q : Nat} (hb : 1 ≤ b) : q < ceilDiv a b ↔ q * b < a := by
  rw [← Nat.not_le, ceilDiv_le_iff hb, Nat.not_le]

theorem le_alignUp (n : Nat) {B : Nat} (hB : 1 ≤ B) : n ≤ alignUp n B :=
  (ceilDiv_le_iff hB).1 (Nat.le_refl _)

theorem dvd_alignUp (n B : Nat) : B ∣ alignUp n B := Nat.dvd_mul_left _ _

/-! ## Headers and packets -/

@[simp] theorem hdrEncode_length (h : Header) : (hdrEncode h).length = 12 := by simp [hdrEncode]

@[simp] theorem zeros_length (k : Nat) : (zeros k).length = k := by simp [zeros]

/-- Decoding reads only the first 12 bytes. -/
theorem hdrDecode_append (a b : Bytes) (h : a.length = 12) : hdrDecode (a ++ b) = hdrDecode a := by
  have e : ∀ o n, o + n ≤ 12 → readLE (a ++ b) o n = readLE a o n := by
    intro o n hon
    unfold readLE bufRead
    rw [List.drop_append_of_le_length (by omega), List.take_append_of_le_length (by simp; omega)]
  simp [hdrDecode, e]

theorem packet_length (B : Nat) (id : BitVec 64) (fn fnum : BitVec 8) (pay : Bytes) (hB : 1 ≤ B) :
    (packet B id fn fnum pay).length = alignUp (12 + pay.length) B := by
  have := le_alignUp (12 + pay.length) hB
  simp [packet, pad]; omega

/-- The payload of a packet is read back from it. -/
theorem bufRead_packet (B : Nat) (id : BitVec 64) (fn fnum : BitVec 8) (pay : Bytes) :
    bufRead (packet B id fn fnum pay) 12 pay.length = pay := by
  unfold packet
  rw [List.append_assoc, bufRead_append_right _ _ _ _ (by simp)]
  simp [bufRead_append_left]

end Sys2Proof.Machine
end

