-- ==== Sys2Proof/Laws/State.lean ====
section
/-! SUPPORT. One lemma per field per update of the state and of the DefragTable, so that no later proof unfolds an update. -/

namespace Sys2Proof.Machine

/-! ## setId -/

@[simp] theorem setId_cfg (s : State) (v : BitVec 64) : (s.setId v).cfg = s.cfg := rfl
@[simp] theorem setId_id (s : State) (v : BitVec 64) : (s.setId v).id = v := rfl
@[simp] theorem setId_table (s : State) (v : BitVec 64) : (s.setId v).table = s.table := rfl
@[simp] theorem setId_draws (s : State) (v : BitVec 64) : (s.setId v).draws = s.draws := rfl
@[simp] theorem setId_inputs (s : State) (v : BitVec 64) : (s.setId v).inputs = s.inputs := rfl
@[simp] theorem setId_traceE (s : State) (v : BitVec 64) : (s.setId v).traceE = s.traceE := rfl
@[simp] theorem setId_traceI (s : State) (v : BitVec 64) : (s.setId v).traceI = s.traceI := rfl
@[simp] theorem setId_endedE (s : State) (v : BitVec 64) : (s.setId v).endedE = s.endedE := rfl
@[simp] theorem setId_endedI (s : State) (v : BitVec 64) : (s.setId v).endedI = s.endedI := rfl
@[simp] theorem setId_trace (s : State) (v : BitVec 64) (e : Engine) : (s.setId v).trace e = s.trace e := by
  cases e <;> rfl

/-! ## setTable -/

@[simp] theorem setTable_cfg (s : State) (t : DefragTable) : (s.setTable t).cfg = s.cfg := rfl
@[simp] theorem setTable_id (s : State) (t : DefragTable) : (s.setTable t).id = s.id := rfl
@[simp] theorem setTable_table (s : State) (t : DefragTable) : (s.setTable t).table = t := rfl
@[simp] theorem setTable_draws (s : State) (t : DefragTable) : (s.setTable t).draws = s.draws := rfl
@[simp] theorem setTable_inputs (s : State) (t : DefragTable) : (s.setTable t).inputs = s.inputs := rfl
@[simp] theorem setTable_traceE (s : State) (t : DefragTable) : (s.setTable t).traceE = s.traceE := rfl
@[simp] theorem setTable_traceI (s : State) (t : DefragTable) : (s.setTable t).traceI = s.traceI := rfl
@[simp] theorem setTable_endedE (s : State) (t : DefragTable) : (s.setTable t).endedE = s.endedE := rfl
@[simp] theorem setTable_endedI (s : State) (t : DefragTable) : (s.setTable t).endedI = s.endedI := rfl
@[simp] theorem setTable_trace (s : State) (t : DefragTable) (e : Engine) : (s.setTable t).trace e = s.trace e := by
  cases e <;> rfl

/-! ## setInputs -/

@[simp] theorem setInputs_cfg (s : State) (l : List Input) : (s.setInputs l).cfg = s.cfg := rfl
@[simp] theorem setInputs_id (s : State) (l : List Input) : (s.setInputs l).id = s.id := rfl
@[simp] theorem setInputs_table (s : State) (l : List Input) : (s.setInputs l).table = s.table := rfl
@[simp] theorem setInputs_draws (s : State) (l : List Input) : (s.setInputs l).draws = s.draws := rfl
@[simp] theorem setInputs_inputs (s : State) (l : List Input) : (s.setInputs l).inputs = l := rfl
@[simp] theorem setInputs_traceE (s : State) (l : List Input) : (s.setInputs l).traceE = s.traceE := rfl
@[simp] theorem setInputs_traceI (s : State) (l : List Input) : (s.setInputs l).traceI = s.traceI := rfl
@[simp] theorem setInputs_endedE (s : State) (l : List Input) : (s.setInputs l).endedE = s.endedE := rfl
@[simp] theorem setInputs_endedI (s : State) (l : List Input) : (s.setInputs l).endedI = s.endedI := rfl
@[simp] theorem setInputs_trace (s : State) (l : List Input) (e : Engine) : (s.setInputs l).trace e = s.trace e := by
  cases e <;> rfl
@[simp] theorem setInputs_hasEnded (s : State) (l : List Input) (e : Engine) :
    (s.setInputs l).hasEnded e = s.hasEnded e := by cases e <;> rfl

/-! ## record -/

@[simp] theorem record_cfg (s : State) (ev : Event) : (s.record ev).cfg = s.cfg := by
  unfold State.record; split <;> rfl
@[simp] theorem record_id (s : State) (ev : Event) : (s.record ev).id = s.id := by
  unfold State.record; split <;> rfl
@[simp] theorem record_table (s : State) (ev : Event) : (s.record ev).table = s.table := by
  unfold State.record; split <;> rfl
@[simp] theorem record_draws (s : State) (ev : Event) : (s.record ev).draws = s.draws := by
  unfold State.record; split <;> rfl
@[simp] theorem record_inputs (s : State) (ev : Event) : (s.record ev).inputs = s.inputs := by
  unfold State.record; split <;> rfl
@[simp] theorem record_endedE (s : State) (ev : Event) : (s.record ev).endedE = s.endedE := by
  unfold State.record; split <;> rfl
@[simp] theorem record_endedI (s : State) (ev : Event) : (s.record ev).endedI = s.endedI := by
  unfold State.record; split <;> rfl
@[simp] theorem record_hasEnded (s : State) (ev : Event) (e : Engine) : (s.record ev).hasEnded e = s.hasEnded e := by
  cases e <;> simp [State.hasEnded]

/-- The event stands at the end of its engine's trace. -/
@[simp] theorem record_trace_own (s : State) (ev : Event) :
    (s.record ev).trace ev.command.engine = s.trace ev.command.engine ++ [ev] := by
  unfold State.record; split <;> next h => simp [State.trace, h]

/-- The other engine's trace is as before. -/
theorem record_trace_ne (s : State) (ev : Event) {e : Engine} (h : e ≠ ev.command.engine) :
    (s.record ev).trace e = s.trace e := by
  cases e <;> unfold State.record <;> split <;> simp_all [State.trace]

/-! ## resets -/

@[simp] theorem resetEgress_cfg (s : State) : (resetEgress s).cfg = s.cfg := rfl
@[simp] theorem resetEgress_id (s : State) : (resetEgress s).id = Config.idSeed s.draws := rfl
@[simp] theorem resetEgress_table (s : State) : (resetEgress s).table = s.table := rfl
@[simp] theorem resetEgress_draws (s : State) : (resetEgress s).draws = s.draws + 1 := rfl
@[simp] theorem resetEgress_inputs (s : State) : (resetEgress s).inputs = s.inputs := rfl
@[simp] theorem resetEgress_traceE (s : State) : (resetEgress s).traceE = s.traceE := rfl
@[simp] theorem resetEgress_traceI (s : State) : (resetEgress s).traceI = s.traceI := rfl
@[simp] theorem resetEgress_endedE (s : State) : (resetEgress s).endedE = false := rfl
@[simp] theorem resetEgress_endedI (s : State) : (resetEgress s).endedI = s.endedI := rfl
@[simp] theorem resetIngress_cfg (s : State) : (resetIngress s).cfg = s.cfg := rfl
@[simp] theorem resetIngress_id (s : State) : (resetIngress s).id = s.id := rfl
@[simp] theorem resetIngress_table (s : State) : (resetIngress s).table = DefragTable.reset s.cfg.fragCap := rfl
@[simp] theorem resetIngress_draws (s : State) : (resetIngress s).draws = s.draws := rfl
@[simp] theorem resetIngress_inputs (s : State) : (resetIngress s).inputs = s.inputs := rfl
@[simp] theorem resetIngress_traceE (s : State) : (resetIngress s).traceE = s.traceE := rfl
@[simp] theorem resetIngress_traceI (s : State) : (resetIngress s).traceI = s.traceI := rfl
@[simp] theorem resetIngress_endedE (s : State) : (resetIngress s).endedE = s.endedE := rfl
@[simp] theorem resetIngress_endedI (s : State) : (resetIngress s).endedI = false := rfl

/-! ## The DefragTable -/

@[simp] theorem slot_setSlot_same (t : DefragTable) (s : SlotIx) (sl : Slot) : (t.setSlot s sl).slot s = sl := by
  simp [DefragTable.slot, DefragTable.setSlot]

theorem slot_setSlot_ne (t : DefragTable) {s s' : SlotIx} (sl : Slot) (h : s' ≠ s) :
    (t.setSlot s sl).slot s' = t.slot s' := by
  have hv : s.val ≠ s'.val := fun e => h (Fin.ext e.symm)
  simp [DefragTable.slot, DefragTable.setSlot, hv]

@[simp] theorem order_setSlot (t : DefragTable) (s : SlotIx) (sl : Slot) : (t.setSlot s sl).order = t.order := rfl
@[simp] theorem slot_promote (t : DefragTable) (s s' : SlotIx) : (t.promote s).slot s' = t.slot s' := rfl
@[simp] theorem slot_demote (t : DefragTable) (s s' : SlotIx) : (t.demote s).slot s' = t.slot s' := rfl
@[simp] theorem order_promote (t : DefragTable) (s : SlotIx) :
    (t.promote s).order = s :: t.order.filter (fun k => k ≠ s) := rfl
@[simp] theorem order_demote (t : DefragTable) (s : SlotIx) :
    (t.demote s).order = t.order.filter (fun k => k ≠ s) ++ [s] := rfl
@[simp] theorem slot_reset (fragCap : Nat) (s : SlotIx) : (DefragTable.reset fragCap).slot s = Slot.reset fragCap := by
  simp [DefragTable.slot, DefragTable.reset]
@[simp] theorem order_reset (fragCap : Nat) : (DefragTable.reset fragCap).order = [0, 1, 2] := rfl

/-- Two tables with the same slots and the same order are the same. -/
theorem DefragTable.ext_slot {t u : DefragTable} (hs : ∀ s, t.slot s = u.slot s) (ho : t.order = u.order) : t = u := by
  obtain ⟨tslots, tord⟩ := t
  obtain ⟨uslots, uord⟩ := u
  simp only [DefragTable.mk.injEq] at ho ⊢
  refine ⟨?_, ho⟩
  ext1 i hi
  exact hs ⟨i, hi⟩

/-! ## Slots -/

@[simp] theorem store_id (sl : Slot) (j : Nat) (p : Bytes) : (sl.store j p).id = sl.id := rfl
@[simp] theorem store_expected (sl : Slot) (j : Nat) (p : Bytes) : (sl.store j p).expected = sl.expected := rfl
@[simp] theorem store_length (sl : Slot) (j : Nat) (p : Bytes) : (sl.store j p).frag.length = sl.frag.length := by
  simp [Slot.store]
@[simp] theorem setExpected_id (sl : Slot) (n : BitVec 8) : (sl.setExpected n).id = sl.id := rfl
@[simp] theorem setExpected_expected (sl : Slot) (n : BitVec 8) : (sl.setExpected n).expected = n := rfl
@[simp] theorem setExpected_frag (sl : Slot) (n : BitVec 8) : (sl.setExpected n).frag = sl.frag := rfl
@[simp] theorem setExpected_fragAt (sl : Slot) (n : BitVec 8) (j : Nat) : (sl.setExpected n).fragAt j = sl.fragAt j := rfl
@[simp] theorem setExpected_count (sl : Slot) (n : BitVec 8) : (sl.setExpected n).count = sl.count := rfl
@[simp] theorem clear_id (sl : Slot) (c : Nat) : (sl.clear c).id = sl.id := rfl
@[simp] theorem clear_expected (sl : Slot) (c : Nat) : (sl.clear c).expected = sl.expected := rfl
@[simp] theorem clear_length (sl : Slot) (c : Nat) : (sl.clear c).frag.length = c := by simp [Slot.clear]
@[simp] theorem fresh_id (c : Nat) (h : Header) : (Slot.fresh c h).id = h.id := rfl
@[simp] theorem fresh_expected (c : Nat) (h : Header) : (Slot.fresh c h).expected = h.fragNum := rfl
@[simp] theorem fresh_length (c : Nat) (h : Header) : (Slot.fresh c h).frag.length = c := by simp [Slot.fresh]
@[simp] theorem clear_fragAt (sl : Slot) (c j : Nat) : (sl.clear c).fragAt j = none := by
  by_cases h : j < c <;> simp [Slot.fragAt, Slot.clear, h]
@[simp] theorem fresh_fragAt (c : Nat) (h : Header) (j : Nat) : (Slot.fresh c h).fragAt j = none := by
  by_cases hj : j < c <;> simp [Slot.fragAt, Slot.fresh, hj]
@[simp] theorem reset_fragAt (c j : Nat) : (Slot.reset c).fragAt j = none := by
  by_cases hj : j < c <;> simp [Slot.fragAt, Slot.reset, hj]
@[simp] theorem clear_count (sl : Slot) (c : Nat) : (sl.clear c).count = 0 := by
  simp [Slot.count, Slot.clear, List.countP_replicate]
@[simp] theorem fresh_count (c : Nat) (h : Header) : (Slot.fresh c h).count = 0 := by
  simp [Slot.count, Slot.fresh, List.countP_replicate]
@[simp] theorem reset_count (c : Nat) : (Slot.reset c).count = 0 := by
  simp [Slot.count, Slot.reset, List.countP_replicate]

/-- The entry stored is the entry read. -/
theorem store_fragAt_same (sl : Slot) (j : Nat) (p : Bytes) (h : j < sl.frag.length) :
    (sl.store j p).fragAt j = some p := by
  simp [Slot.fragAt, Slot.store, h]

/-- A store leaves every other entry alone. -/
theorem store_fragAt_ne (sl : Slot) {j k : Nat} (p : Bytes) (h : k ≠ j) : (sl.store j p).fragAt k = sl.fragAt k := by
  simp [Slot.fragAt, Slot.store, List.getElem?_set_ne (Ne.symm h)]

/-- No fragment is stored exactly when `count` is 0. -/
theorem count_eq_zero_iff (sl : Slot) : sl.count = 0 ↔ ∀ j, sl.fragAt j = none := by
  simp only [Slot.count, List.countP_eq_zero, Slot.fragAt]
  constructor
  · intro h j
    by_cases hj : j < sl.frag.length
    · have := h sl.frag[j] (List.getElem_mem hj)
      simpa [List.getElem?_eq_getElem hj] using this
    · simp [List.getElem?_eq_none (Nat.le_of_not_lt hj)]
  · intro h a ha
    obtain ⟨j, hj, rfl⟩ := List.getElem_of_mem ha
    have := h j
    simpa [List.getElem?_eq_getElem hj] using this

/-- `allPresent` says what it scans. -/
theorem allPresent_iff (sl : Slot) (n : Nat) : sl.allPresent n = true ↔ ∀ j < n, (sl.fragAt j).isSome = true := by
  simp [Slot.allPresent, List.all_eq_true]

end Sys2Proof.Machine
end

