-- ==== Sys2Proof/Laws/Ops.lean ====
section
/-! SUPPORT. For each shared operation one lemma that says everything it can do; for each meaning and for the step an inversion. -/

namespace Sys2Proof.Machine

theorem whenValid_eq_next {s t : State} {k : Host.Outcome State Fault Refusal} :
    whenValid s k = .next t ↔ s.cfg.valid = true ∧ k = .next t := by
  unfold whenValid
  split <;> simp_all

theorem whenValid_of_valid {s : State} (h : s.cfg.valid = true) (k : Host.Outcome State Fault Refusal) :
    whenValid s k = k := by simp [whenValid, h]

theorem whenValid_of_invalid {s : State} (h : s.cfg.valid = false) (k : Host.Outcome State Fault Refusal) :
    whenValid s k = .refused .invalidConfig := by simp [whenValid, h]

theorem finish_eq_next {c : Command} {st : Status} {out : Output} {s t : State} :
    finish c st out s = .next t ↔ t = s.record ⟨c, st, out⟩ := by
  simp [finish, eq_comm]

/-- The configuration check, range by range (R28). -/
theorem valid_iff (c : Cfg) : c.valid = true ↔
    1 ≤ c.block ∧ 1 ≤ c.maxPay ∧ c.maxPay ≤ 65535 ∧ 1 ≤ c.fragCap ∧ c.fragCap ≤ 255 ∧ c.nslots = 3 ∧ 1 ≤ c.maxDgram := by
  simp [Cfg.valid, and_assoc]

/-- Everything a command can do: it records one event of its own encoding, and only a successful FRAG writes `ID` and only a
REASM on INGRESS writes the table. -/
theorem exec_cases {i : Instr} {s t : State} (h : exec i s = .next t) :
    s.cfg.valid = true ∧ ∃ st out,
      (t = s.record ⟨encode i, st, out⟩ ∧ (∀ d, i = .frag .egress d → fragFault s.cfg d.length = some st)
          ∧ (∀ p, i ≠ .reasm .ingress p) ∧ (st.kind ≠ .success → out = .nothing))
      ∨ (∃ d, i = .frag .egress d ∧ fragFault s.cfg d.length = none ∧ st = .ok
          ∧ out = .packets (fragCount s.cfg d.length) (fragPackets s.cfg s.id d)
          ∧ t = (s.setId (s.id + 1)).record ⟨encode i, st, out⟩)
      ∨ (∃ p, i = .reasm .ingress p ∧ st = (reassemble s.cfg p s.table).status
          ∧ out = (reassemble s.cfg p s.table).output
          ∧ t = (s.setTable (reassemble s.cfg p s.table).table).record ⟨encode i, st, out⟩) := by
  cases i with
  | henc e id fn fnum ln =>
    simp only [exec, execHenc, whenValid_eq_next, finish_eq_next] at h
    exact ⟨h.1, _, _, .inl ⟨h.2, by simp, by simp, by simp [Status.kind]⟩⟩
  | hdec e b =>
    simp only [exec, execHdec, whenValid_eq_next] at h
    refine ⟨h.1, ?_⟩
    have h2 := h.2
    split at h2
    · exact ⟨_, _, .inl ⟨finish_eq_next.1 h2, by simp, by simp, by simp⟩⟩
    · exact ⟨_, _, .inl ⟨finish_eq_next.1 h2, by simp, by simp, by simp [Status.kind]⟩⟩
  | align e n =>
    simp only [exec, execAlign, whenValid_eq_next, finish_eq_next] at h
    exact ⟨h.1, _, _, .inl ⟨h.2, by simp, by simp, by simp [Status.kind]⟩⟩
  | frag e d =>
    simp only [exec, execFrag, whenValid_eq_next] at h
    refine ⟨h.1, ?_⟩
    have h2 := h.2
    split at h2
    · next he =>
      subst he
      split at h2
      · next st hf =>
        exact ⟨st, .nothing, .inl ⟨finish_eq_next.1 h2, by rintro d' ⟨⟩; exact hf, by simp, by simp⟩⟩
      · next hf => exact ⟨_, _, .inr (.inl ⟨d, rfl, hf, rfl, rfl, finish_eq_next.1 h2⟩)⟩
    · next he =>
      exact ⟨_, _, .inl ⟨finish_eq_next.1 h2, by rintro d' ⟨⟩; exact absurd rfl he, by simp, by simp⟩⟩
  | reasm e p =>
    simp only [exec, execReasm, whenValid_eq_next] at h
    refine ⟨h.1, ?_⟩
    have h2 := h.2
    split at h2
    · next he =>
      subst he
      exact ⟨_, _, .inr (.inr ⟨p, rfl, rfl, rfl, finish_eq_next.1 h2⟩)⟩
    · next he =>
      exact ⟨_, _, .inl ⟨finish_eq_next.1 h2, by simp, by rintro p' ⟨⟩; exact he rfl, by simp⟩⟩

/-- Everything a step can do when it answers a next state: wait, carry out a legal command, end an illegal one, a reset, a host
event. -/
theorem step_cases {s t : State} (h : step s = .next t) :
    s.cfg.valid = true ∧
      ((s.inputs = [] ∧ t = s)
      ∨ (∃ c rest i, s.inputs = .command c :: rest ∧ s.hasEnded c.engine = false ∧ decode c = .ok i
          ∧ exec i (s.setInputs rest) = .next t)
      ∨ (∃ c rest, s.inputs = .command c :: rest ∧ s.hasEnded c.engine = false ∧ decode c = .error .illegalOp
          ∧ t = (s.setInputs rest).record ⟨c, .errIllegalOp, .nothing⟩)
      ∨ (∃ r rest, s.inputs = .reset r :: rest ∧ t = applyReset r (s.setInputs rest))
      ∨ (∃ ev rest, s.inputs = .host ev :: rest ∧ t = applyHost ev (s.setInputs rest))) := by
  simp only [step, whenValid_eq_next] at h
  refine ⟨h.1, ?_⟩
  have h2 := h.2
  split at h2
  · next hi => cases h2; exact .inl ⟨hi, rfl⟩
  · next c rest hi =>
    split at h2
    · cases h2
    · next he =>
      unfold present at h2
      split at h2
      · next i hd => exact .inr (.inl ⟨c, rest, i, hi, by simpa using he, hd, h2⟩)
      · next hd =>
        simp only [execIllegal, raise, whenValid_eq_next, finish_eq_next] at h2
        exact .inr (.inr (.inl ⟨c, rest, hi, by simpa using he, hd, h2.2⟩))
      · cases h2
  · next r rest hi => cases h2; exact .inr (.inr (.inr (.inl ⟨r, rest, hi, rfl⟩)))
  · next ev rest hi => cases h2; exact .inr (.inr (.inr (.inr ⟨ev, rest, hi, rfl⟩)))

/-- A step on a command under a legal configuration. -/
theorem step_command {s : State} {c : Command} {rest : List Input} (hv : s.cfg.valid = true)
    (hi : s.inputs = .command c :: rest) :
    step s = if s.hasEnded c.engine then .refused (.runEnded c.engine) else present c (s.setInputs rest) := by
  simp [step, whenValid_of_valid hv, hi]

end Sys2Proof.Machine
end

