-- ==== Sys2Proof/Laws/PerInstr.lean ====
section
/-! SUPPORT. What is said of every instruction as syntax, one lemma per constructor. -/

namespace Sys2Proof.Laws.OpcodeRow

/-- The encoding of an instruction stands on the instruction's engine; if the instruction is well-formed, its command word is in
that engine's opcode map, and the row with the operand record is the instruction (R55, R56). -/
def Statement (i : Instr) : Prop :=
  (encode i).engine = i.engine
  ∧ (i.wf = true → ∃ op, opcodeOf (encode i).engine (encode i).cw = some op
      ∧ instrOf (encode i).engine op (encode i).operand = some i)

theorem henc (e : Engine) (id : BitVec 64) (fragn fragnum : BitVec 8) (len : BitVec 16) :
    Statement (.henc e id fragn fragnum len) := ⟨rfl, fun _ => ⟨.henc, rfl, rfl⟩⟩

theorem hdec (e : Engine) (buf : Bytes) : Statement (.hdec e buf) := ⟨rfl, fun _ => ⟨.hdec, rfl, rfl⟩⟩

theorem align (e : Engine) (n : Nat) : Statement (.align e n) := ⟨rfl, fun _ => ⟨.align, rfl, rfl⟩⟩

theorem frag (e : Engine) (dgram : Bytes) : Statement (.frag e dgram) := by
  refine ⟨rfl, fun h => ⟨.frag, ?_, rfl⟩⟩
  cases e with
  | egress => rfl
  | ingress => cases h

theorem reasm (e : Engine) (pkt : Bytes) : Statement (.reasm e pkt) := by
  refine ⟨rfl, fun h => ⟨.reasm, ?_, rfl⟩⟩
  cases e with
  | egress => cases h
  | ingress => rfl

end Sys2Proof.Laws.OpcodeRow
end

