-- ==== Sys2Proof/Laws/Table.lean ====
section
/-! SUPPORT. What REASM can do to the DefragTable: one lemma per part of the slow path, and the inversion of the whole. -/

namespace Sys2Proof.Machine

/-! ## ORDER -/

/-- `promote` keeps a permutation. -/
theorem promote_perm {t : DefragTable} (s : SlotIx) (h : t.order.Perm [0, 1, 2]) : (t.promote s).order.Perm [0, 1, 2] := by
  have hn : t.order.Nodup := h.nodup_iff.2 (by decide)
  have hs : s ∈ t.order := h.mem_iff.2 (by revert s; decide)
  have he : t.order.filter (fun k => k ≠ s) = t.order.erase s := by
    rw [hn.erase_eq_filter]
    congr 1
    funext k
    by_cases hk : k = s <;> simp [hk]
  rw [order_promote, he]
  exact (List.perm_cons_erase hs).symm.trans h

/-- `demote` keeps a permutation. -/
theorem demote_perm {t : DefragTable} (s : SlotIx) (h : t.order.Perm [0, 1, 2]) : (t.demote s).order.Perm [0, 1, 2] := by
  have hp := promote_perm s h
  rw [order_promote] at hp
  rw [order_demote]
  exact (List.perm_append_singleton s _).trans hp

/-- Removing `k` from a list without repeats. -/
theorem filter_ne_of_nodup {k : SlotIx} {before after : List SlotIx} (h : (before ++ k :: after).Nodup) :
    (before ++ k :: after).filter (fun j => j ≠ k) = before ++ after := by
  rw [List.nodup_append] at h
  obtain ⟨-, ha, hne⟩ := h
  rw [List.nodup_cons] at ha
  have hb : before.filter (fun j => j ≠ k) = before :=
    List.filter_eq_self.2 fun j hj => by simpa using hne j hj k (by simp)
  have haf : after.filter (fun j => j ≠ k) = after :=
    List.filter_eq_self.2 fun j hj => by simpa using fun e : j = k => ha.1 (e ▸ hj)
  rw [List.filter_append, List.filter_cons_of_neg (by simp), hb, haf]

/-! ## Lookup -/

/-- A hit: the slot found is the head-most that holds the `id` (R85). -/
theorem lookup_eq_some {t : DefragTable} {id : BitVec 64} {k : SlotIx} :
    t.lookup id = some k ↔ (t.slot k).id = id ∧ ∃ before after, t.order = before ++ k :: after ∧
      ∀ j ∈ before, (t.slot j).id ≠ id := by
  simp [DefragTable.lookup, List.find?_eq_some_iff_append]

/-- A miss: no slot of ORDER holds the `id`. -/
theorem lookup_eq_none {t : DefragTable} {id : BitVec 64} :
    t.lookup id = none ↔ ∀ j ∈ t.order, (t.slot j).id ≠ id := by
  simp [DefragTable.lookup]

/-- The tail is the last of a list that has one. -/
theorem tail_append (t : DefragTable) (front : List SlotIx) (k : SlotIx) (h : t.order = front ++ [k]) : t.tail = k := by
  simp [DefragTable.tail, h]

/-! ## Hit, miss, store -/

@[simp] theorem acceptHit_slot_same (h : Header) (s : SlotIx) (t : DefragTable) :
    (acceptHit h s t).slot s = (t.slot s).setExpected h.fragNum := by simp [acceptHit]
theorem acceptHit_slot_ne (h : Header) {s s' : SlotIx} (t : DefragTable) (hs : s' ≠ s) :
    (acceptHit h s t).slot s' = t.slot s' := by simp [acceptHit, slot_setSlot_ne _ _ hs]
@[simp] theorem acceptHit_order (h : Header) (s : SlotIx) (t : DefragTable) :
    (acceptHit h s t).order = s :: t.order.filter (fun k => k ≠ s) := rfl
@[simp] theorem acceptMiss_slot_same (cfg : Cfg) (h : Header) (s : SlotIx) (t : DefragTable) :
    (acceptMiss cfg h s t).slot s = Slot.fresh cfg.fragCap h := by simp [acceptMiss]
theorem acceptMiss_slot_ne (cfg : Cfg) (h : Header) {s s' : SlotIx} (t : DefragTable) (hs : s' ≠ s) :
    (acceptMiss cfg h s t).slot s' = t.slot s' := by simp [acceptMiss, slot_setSlot_ne _ _ hs]
@[simp] theorem acceptMiss_order (cfg : Cfg) (h : Header) (s : SlotIx) (t : DefragTable) :
    (acceptMiss cfg h s t).order = s :: t.order.filter (fun k => k ≠ s) := rfl

/-- A store that leaves a fragment absent (R90). -/
theorem storeFragment_pending {cfg : Cfg} {h : Header} {pay : Bytes} {s : SlotIx} {t : DefragTable}
    (ha : ((t.slot s).store h.fragN.toNat pay).allPresent h.fragNum.toNat = false) :
    storeFragment cfg h pay s t = ⟨.pending, .nothing, t.setSlot s ((t.slot s).store h.fragN.toNat pay)⟩ := by
  simp [storeFragment, ha]

/-- A store that completes the datagram (R91). -/
theorem storeFragment_complete {cfg : Cfg} {h : Header} {pay : Bytes} {s : SlotIx} {t : DefragTable}
    (ha : ((t.slot s).store h.fragN.toNat pay).allPresent h.fragNum.toNat = true) :
    storeFragment cfg h pay s t =
      ⟨.emitReasm, .datagram (((t.slot s).store h.fragN.toNat pay).gather h.fragNum.toNat),
        (t.setSlot s (((t.slot s).store h.fragN.toNat pay).clear cfg.fragCap)).demote s⟩ := by
  simp [storeFragment, ha]

/-- Everything a REASM can answer: the table left alone under a rejection or the fast path, or a fragment stored after a hit or a
miss. -/
theorem reassemble_cases (cfg : Cfg) (p : Bytes) (t : DefragTable) :
    ((reassemble cfg p t).table = t
      ∧ (((reassemble cfg p t).status = .emitFast
            ∧ (reassemble cfg p t).output = .datagram (bufRead p 12 (hdrDecode p).len.toNat))
        ∨ ((reassemble cfg p t).status.kind = .protocolViolation ∧ (reassemble cfg p t).output = .nothing)))
    ∨ (lengthViolation cfg p = none ∧ 2 ≤ (hdrDecode p).fragNum.toNat ∧ badHeader cfg (hdrDecode p) = false
      ∧ ((∃ k, t.lookup (hdrDecode p).id = some k ∧ countMismatch (hdrDecode p) k t = false
            ∧ reassemble cfg p t = storeFragment cfg (hdrDecode p) (bufRead p 12 (hdrDecode p).len.toNat) k
                (acceptHit (hdrDecode p) k t))
        ∨ (t.lookup (hdrDecode p).id = none
            ∧ reassemble cfg p t = storeFragment cfg (hdrDecode p) (bufRead p 12 (hdrDecode p).len.toNat) t.tail
                (acceptMiss cfg (hdrDecode p) t.tail t)))) := by
  unfold reassemble
  split
  · next st hst =>
    refine .inl ⟨rfl, .inr ⟨?_, rfl⟩⟩
    unfold lengthViolation at hst
    split at hst
    · cases hst; rfl
    · split at hst <;> cases hst; rfl
  · next hl =>
    dsimp only
    split
    · exact .inl ⟨rfl, .inl ⟨rfl, rfl⟩⟩
    · next hn =>
      split
      · exact .inl ⟨rfl, .inr ⟨rfl, rfl⟩⟩
      · next hb =>
        have hb' : badHeader cfg (hdrDecode p) = false := by simpa using hb
        unfold slowPath
        split
        · next k hk =>
          split
          · exact .inl ⟨rfl, .inr ⟨rfl, rfl⟩⟩
          · next hm => exact .inr ⟨hl, by omega, hb', .inl ⟨k, hk, by simpa using hm, rfl⟩⟩
        · next hk => exact .inr ⟨hl, by omega, hb', .inr ⟨hk, rfl⟩⟩

/-- The slow path's answer, once the packet is past its checks. -/
theorem reassemble_slow {cfg : Cfg} {p : Bytes} {t : DefragTable} (hl : lengthViolation cfg p = none)
    (hn : 2 ≤ (hdrDecode p).fragNum.toNat) (hb : badHeader cfg (hdrDecode p) = false) :
    reassemble cfg p t = slowPath cfg (hdrDecode p) (bufRead p 12 (hdrDecode p).len.toNat) t := by
  unfold reassemble
  rw [hl]
  simp only [hb]
  rw [if_neg (by omega)]
  simp

/-- A packet whose length is rejected (R79, R81). -/
theorem reassemble_length {cfg : Cfg} {p : Bytes} {t : DefragTable} {st : Status} (h : lengthViolation cfg p = some st) :
    reassemble cfg p t = ⟨st, .nothing, t⟩ := by
  unfold reassemble; rw [h]; rfl

/-- A packet on the fast path (R83). -/
theorem reassemble_fast {cfg : Cfg} {p : Bytes} {t : DefragTable} (h : lengthViolation cfg p = none)
    (hn : (hdrDecode p).fragNum.toNat ≤ 1) :
    reassemble cfg p t = ⟨.emitFast, .datagram (bufRead p 12 (hdrDecode p).len.toNat), t⟩ := by
  unfold reassemble; rw [h]; simp only [hn, if_true]; rfl

/-- A packet with a bad header (R84). -/
theorem reassemble_badHeader {cfg : Cfg} {p : Bytes} {t : DefragTable} (h : lengthViolation cfg p = none)
    (hn : 2 ≤ (hdrDecode p).fragNum.toNat) (hb : badHeader cfg (hdrDecode p) = true) :
    reassemble cfg p t = ⟨.pvBadHeader, .nothing, t⟩ := by
  unfold reassemble; rw [h]; simp only [hb, if_true]; rw [if_neg (by omega)]; rfl

/-- What a good header says (R84). -/
theorem badHeader_eq_false {cfg : Cfg} {h : Header} (hb : badHeader cfg h = false) :
    h.fragNum.toNat ≤ cfg.fragCap ∧ h.fragN.toNat < h.fragNum.toNat := by
  simp [badHeader] at hb; omega

/-- What passing the length checks says (R79, R81). -/
theorem lengthViolation_eq_none {cfg : Cfg} {p : Bytes} : lengthViolation cfg p = none ↔
    12 + cfg.minPay ≤ p.length ∧ p.length = alignUp (12 + (hdrDecode p).len.toNat) cfg.block := by
  unfold lengthViolation
  split
  · simp; omega
  · split <;> simp_all

/-- An accepted hit (R85, R87). -/
theorem reassemble_hit {cfg : Cfg} {p : Bytes} {t : DefragTable} {k : SlotIx} {before after : List SlotIx}
    (hl : lengthViolation cfg p = none) (hn : 2 ≤ (hdrDecode p).fragNum.toNat)
    (hb : badHeader cfg (hdrDecode p) = false) (ho : t.order = before ++ k :: after)
    (hbe : ∀ j ∈ before, (t.slot j).id ≠ (hdrDecode p).id) (hid : (t.slot k).id = (hdrDecode p).id)
    (hc : (t.slot k).count = 0 ∨ (t.slot k).expected = (hdrDecode p).fragNum) :
    reassemble cfg p t = storeFragment cfg (hdrDecode p) (bufRead p 12 (hdrDecode p).len.toNat) k
      (acceptHit (hdrDecode p) k t) := by
  have hm : countMismatch (hdrDecode p) k t = false := by simp [countMismatch]; tauto
  rw [reassemble_slow hl hn hb]
  unfold slowPath
  rw [lookup_eq_some.2 ⟨hid, before, after, ho, hbe⟩]
  simp [hm]

/-- After a miss the new slot holds one fragment of two or more, so it is not complete (R93). -/
theorem acceptMiss_not_complete {cfg : Cfg} {h : Header} {pay : Bytes} {s : SlotIx} {t : DefragTable}
    (hn : 2 ≤ h.fragNum.toNat) :
    (((acceptMiss cfg h s t).slot s).store h.fragN.toNat pay).allPresent h.fragNum.toNat = false := by
  rw [← Bool.not_eq_true, allPresent_iff]
  intro ha
  obtain ⟨j, hj, hjn⟩ : ∃ j < h.fragNum.toNat, j ≠ h.fragN.toNat := by
    by_cases h0 : h.fragN.toNat = 0
    · exact ⟨1, by omega, by omega⟩
    · exact ⟨0, by omega, by omega⟩
  have := ha j hj
  rw [store_fragAt_ne _ _ hjn] at this
  simp at this

/-- A miss (R88, R89, R93): the tail becomes the packet's slot, with its one fragment, at the head. -/
theorem reassemble_miss {cfg : Cfg} {p : Bytes} {t : DefragTable} (hl : lengthViolation cfg p = none)
    (hn : 2 ≤ (hdrDecode p).fragNum.toNat) (hb : badHeader cfg (hdrDecode p) = false)
    (hid : t.lookup (hdrDecode p).id = none) :
    reassemble cfg p t = ⟨.pending, .nothing, (acceptMiss cfg (hdrDecode p) t.tail t).setSlot t.tail
      ((Slot.fresh cfg.fragCap (hdrDecode p)).store (hdrDecode p).fragN.toNat (bufRead p 12 (hdrDecode p).len.toNat))⟩ := by
  rw [reassemble_slow hl hn hb]
  unfold slowPath
  rw [hid]
  simp only
  rw [storeFragment_pending (acceptMiss_not_complete hn)]
  simp

/-- A slot whose first `n` entries are known gathers their concatenation. -/
theorem gather_eq_flatten {sl : Slot} {frags : List Bytes}
    (h : ∀ j (hj : j < frags.length), sl.fragAt j = some frags[j]) : sl.gather frags.length = frags.flatten := by
  have hm : (List.range frags.length).map (fun j => (sl.fragAt j).getD []) = frags := by
    apply List.ext_getElem (by simp)
    intro i _ h2
    simp [h i h2]
  rw [Slot.gather, List.flatMap_def, hm]

/-- A store touches one slot. -/
theorem storeFragment_slot_ne {cfg : Cfg} {h : Header} {pay : Bytes} {s k : SlotIx} {t : DefragTable} (hk : k ≠ s) :
    (storeFragment cfg h pay s t).table.slot k = t.slot k := by
  unfold storeFragment; dsimp only; split <;> simp [slot_setSlot_ne _ _ hk]

/-- A store answers `PENDING` with nothing, or `EMIT_REASM` with a datagram. -/
theorem storeFragment_status (cfg : Cfg) (h : Header) (pay : Bytes) (s : SlotIx) (t : DefragTable) :
    ((storeFragment cfg h pay s t).status = .pending ∧ (storeFragment cfg h pay s t).output = .nothing)
    ∨ ((storeFragment cfg h pay s t).status = .emitReasm
        ∧ ∃ d, (storeFragment cfg h pay s t).output = .datagram d) := by
  unfold storeFragment; dsimp only; split <;> simp

/-- REASM on INGRESS under a legal configuration. -/
theorem exec_reasm {p : Bytes} {s : State} (hv : s.cfg.valid = true) :
    exec (.reasm .ingress p) s =
      .next ((s.setTable (reassemble s.cfg p s.table).table).record
        ⟨⟨.ingress, 0x05#8, .bytes p⟩, (reassemble s.cfg p s.table).status, (reassemble s.cfg p s.table).output⟩) := by
  simp [exec, execReasm, whenValid_of_valid hv, finish, encode]

end Sys2Proof.Machine
end

