-- ==== Sys2Proof/Laws/Safety.lean ====
section
/-! SUPPORT. Lemmas about what is observed of a command and about the invariants' parts. -/

namespace Sys2Proof.Machine

/-- Recording an event is observing it. -/
theorem observed_record (s : State) (ev : Event) : Observed ev s (s.record ev) := by
  refine ⟨by simp, ?_, by simp⟩
  rw [record_trace_ne]
  cases ev.command.engine <;> simp [otherEngine]

theorem observed_record_setId (s : State) (v : BitVec 64) (ev : Event) : Observed ev s ((s.setId v).record ev) := by
  simpa [Observed] using observed_record (s.setId v) ev

theorem observed_record_setTable (s : State) (u : DefragTable) (ev : Event) :
    Observed ev s ((s.setTable u).record ev) := by
  simpa [Observed] using observed_record (s.setTable u) ev

/-- Two states determine the event observed between them. -/
theorem observed_unique {ev ev' : Event} {s t : State} (h : Observed ev s t) (h' : Observed ev' s t) : ev = ev' := by
  obtain ⟨a, b, -⟩ := h
  obtain ⟨a', b', -⟩ := h'
  cases e : ev.command.engine <;> cases e' : ev'.command.engine <;> rw [e] at a b <;> rw [e'] at a' b' <;>
    simp only [otherEngine] at b b' <;> simp_all

/-- `BlockSame` of a recorded event. -/
@[simp] theorem blockSame_record (s : State) (ev : Event) : BlockSame s (s.record ev) := by simp [BlockSame]

/-- Everything a command can do, with its event: `exec_cases` in the words of Safety. -/
theorem exec_observed {i : Instr} {s t : State} (h : exec i s = .next t) :
    s.cfg.valid = true ∧ ∃ ev, ev.command = encode i ∧ Observed ev s t
      ∧ ((BlockSame s t ∧ (∀ d, i = .frag .egress d → fragFault s.cfg d.length = some ev.status)
            ∧ (∀ p, i ≠ .reasm .ingress p) ∧ (ev.status.kind ≠ .success → ev.output = .nothing))
        ∨ (∃ d, i = .frag .egress d ∧ fragFault s.cfg d.length = none ∧ ev.status = .ok
            ∧ ev.output = .packets (fragCount s.cfg d.length) (fragPackets s.cfg s.id d)
            ∧ t.id = s.id + 1 ∧ t.table = s.table)
        ∨ (∃ p, i = .reasm .ingress p ∧ ev.status = (reassemble s.cfg p s.table).status
            ∧ ev.output = (reassemble s.cfg p s.table).output
            ∧ t.id = s.id ∧ t.table = (reassemble s.cfg p s.table).table)) := by
  obtain ⟨hv, st, out, ⟨rfl, h1, h2, h3⟩ | ⟨d, rfl, h1, rfl, rfl, rfl⟩ | ⟨p, rfl, rfl, rfl, rfl⟩⟩ := exec_cases h
  · exact ⟨hv, _, rfl, observed_record _ _, .inl ⟨blockSame_record _ _, h1, h2, h3⟩⟩
  · exact ⟨hv, _, rfl, observed_record_setId _ _ _, .inr (.inl ⟨d, rfl, h1, rfl, rfl, by simp, by simp⟩)⟩
  · exact ⟨hv, _, rfl, observed_record_setTable _ _ _, .inr (.inr ⟨p, rfl, rfl, rfl, by simp, by simp⟩)⟩

end Sys2Proof.Machine
end

