-- ==== Sys2Proof/Tests/Slice0.lean ====
section
/-! SUPPORT. The model's own tests. Every expected value is the spec's (95_test_vectors, by the vector's name) or worked out by hand
from the rule named. After them, for each statement with hypotheses, a named witness that meets them together. -/

namespace Sys2Proof.Tests

open Sys2Proof.Machine

/-! ## Ill-formed instructions (WellFormed) -/

theorem test_frag_on_ingress_is_ill_formed : (Instr.frag .ingress [1]).wf = false := by decide
theorem test_reasm_on_egress_is_ill_formed : (Instr.reasm .egress [1]).wf = false := by decide

/-! ## Decoding words written out from the opcode map (R55) -/

theorem test_decode_henc : decode ⟨.egress, 0b00000001#8, .fields ⟨0x10, 0, 1, 300⟩⟩ = .ok (.henc .egress 0x10 0 1 300) := rfl
theorem test_decode_hdec : decode ⟨.ingress, 0b00000010#8, .bytes [1, 2]⟩ = .ok (.hdec .ingress [1, 2]) := rfl
theorem test_decode_align : decode ⟨.ingress, 0b00000011#8, .natural 0⟩ = .ok (.align .ingress 0) := rfl
theorem test_decode_frag : decode ⟨.egress, 0b00000100#8, .bytes []⟩ = .ok (.frag .egress []) := rfl
theorem test_decode_reasm : decode ⟨.ingress, 0b00000101#8, .bytes [9]⟩ = .ok (.reasm .ingress [9]) := rfl
theorem test_decode_illegal_zero : decode ⟨.egress, 0x00#8, .empty⟩ = .error .illegalOp := rfl
theorem test_decode_illegal_top : decode ⟨.ingress, 0xFF#8, .empty⟩ = .error .illegalOp := rfl

/-! ## The host's view of a table word -/

theorem test_table_word_frag : decodeTableWord 8 4 = some (.frag .egress []) := by decide
theorem test_table_word_reasm : decodeTableWord 8 5 = some (.reasm .ingress []) := by decide
theorem test_table_word_illegal : decodeTableWord 8 6 = none := by decide

/-- The status and output of the last event on an engine's trace. -/
def shown (e : Engine) (o : Host.Outcome State Fault Refusal) : Option (Status × Output) :=
  match o with
  | .next t => (t.trace e).getLast?.map fun ev => (ev.status, ev.output)
  | _ => none

/-- A field of the next state. -/
def after {α : Type} (f : State → α) (o : Host.Outcome State Fault Refusal) : Option α :=
  match o with
  | .next t => some (f t)
  | _ => none

theorem test_fetch_word_reasm : shown .ingress (step (State.reset.withFetchWord 8 5)) = some (.pvShort, .nothing) := by decide
theorem test_fetch_word_frag : shown .egress (step (State.reset.withFetchWord 8 4)) = some (.frEmpty, .nothing) := by decide

/-! ## Instructions -/

/-- The reference configuration with a seed, as the vectors state it. -/
def start (seed : BitVec 64) : State := { State.powerOn Config.reference with id := seed }

/-- The same with a table. -/
def withTable (t : DefragTable) : State := { start 0x10 with table := t }

/-- A slot with `FRAG_CAP = 32` entries of which the first two are given. -/
def slot2 (id : BitVec 64) (expected : BitVec 8) (f0 f1 : Option Bytes) : Slot :=
  { id := id, expected := expected, frag := f0 :: f1 :: List.replicate 30 none }

/-- T-C3. -/
theorem test_henc_vector : shown .egress (exec (.henc .egress 0x10 0 1 300) (start 0x10))
    = some (.ok, .hdr [0x10, 0, 0, 0, 0, 0, 0, 0, 0x00, 0x01, 0x2c, 0x01]) := by decide

/-- Part 2's byte-order check of `Id`. -/
theorem test_henc_byte_order : shown .ingress (exec (.henc .ingress 0x0102030405060708 5 2 0x0102) (start 0x10))
    = some (.ok, .hdr [8, 7, 6, 5, 4, 3, 2, 1, 5, 2, 0x02, 0x01]) := by decide

/-- T-C7: a thirteenth byte is ignored. -/
theorem test_hdec_ignores_the_rest : shown .ingress (exec (.hdec .ingress [1, 0, 0, 0, 0, 0, 0, 0, 0, 1, 0, 0xff, 0xaa]) (start 0))
    = some (.ok, .fields ⟨1, 0, 1, 65280⟩) := by decide

/-- T-C8: eleven bytes. -/
theorem test_hdec_short : shown .egress (exec (.hdec .egress [0, 0, 0, 0, 0, 0, 0, 0, 0, 0, 0]) (start 0))
    = some (.errShortBuffer, .nothing) := by decide

/-- T-A4. -/
theorem test_align_block_plus_one : shown .egress (exec (.align .egress 17) (start 0)) = some (.ok, .natural 32) := by decide

/-- T-A13: `BLOCK` need not be a power of two. -/
theorem test_align_block_seven :
    shown .egress (exec (.align .egress 12) (State.powerOn { Config.reference with block := 7 })) = some (.ok, .natural 14) := by
  decide

/-- T-F3, with the seed of T-F16: `ID` wraps to 0. -/
theorem test_frag_vector_and_wrap :
    shown .egress (exec (.frag .egress [0xaa, 0xbb, 0xcc]) (start 0xFFFFFFFFFFFFFFFF))
      = some (.ok, .packets 1 [[0xff, 0xff, 0xff, 0xff, 0xff, 0xff, 0xff, 0xff, 0, 1, 3, 0, 0xaa, 0xbb, 0xcc, 0]])
    ∧ after State.id (exec (.frag .egress [0xaa, 0xbb, 0xcc]) (start 0xFFFFFFFFFFFFFFFF)) = some 0 := by decide

/-- T-F17: `MAX_PAY = 3`, 13 bytes: the lengths are 3, 3, 3, 3, 1. -/
theorem test_frag_lengths :
    (fragPackets { Config.reference with maxPay := 3 } 0 [0, 1, 2, 3, 4, 5, 6, 7, 8, 9, 10, 11, 12]).map
      (fun p => ((hdrDecode p).fragN, (hdrDecode p).fragNum, (hdrDecode p).len, p.length))
    = [(0, 5, 3, 16), (1, 5, 3, 16), (2, 5, 3, 16), (3, 5, 3, 16), (4, 5, 1, 16)] := by decide

/-- The table after T-R19. -/
def tableR19 : DefragTable :=
  { slots := #v[slot2 0 2 (some [1, 1, 1, 1]) none, slot2 0 0 none none, slot2 0 0 none none], order := [0, 1, 2] }

/-- T-R19b: the second fragment completes the datagram; the slot keeps `id` and `expected` and goes to the tail. -/
theorem test_reasm_completes :
    shown .ingress (exec (.reasm .ingress [0, 0, 0, 0, 0, 0, 0, 0, 1, 2, 4, 0, 2, 2, 2, 2]) (withTable tableR19))
      = some (.emitReasm, .datagram [1, 1, 1, 1, 2, 2, 2, 2])
    ∧ after State.table (exec (.reasm .ingress [0, 0, 0, 0, 0, 0, 0, 0, 1, 2, 4, 0, 2, 2, 2, 2]) (withTable tableR19))
      = some { slots := #v[slot2 0 2 none none, slot2 0 0 none none, slot2 0 0 none none], order := [1, 2, 0] } := by decide

/-- A table like that of T-S4 before `Id = 4` arrives (payloads of 4 bytes). -/
def tableS4 : DefragTable :=
  { slots := #v[slot2 3 2 (some [0x30, 0x30, 0x30, 0x30]) none, slot2 2 2 (some [0x20, 0x20, 0x20, 0x20]) none,
      slot2 1 2 (some [0x10, 0x10, 0x10, 0x10]) none], order := [0, 1, 2] }

/-- T-S4: a fourth `Id` evicts the least recently touched slot, `SLOT[2]`. -/
theorem test_reasm_evicts :
    shown .ingress (exec (.reasm .ingress [4, 0, 0, 0, 0, 0, 0, 0, 0, 2, 4, 0, 7, 7, 7, 7]) (withTable tableS4))
      = some (.pending, .nothing)
    ∧ after (fun t => (t.table.order, t.table.slot 2)) (exec (.reasm .ingress [4, 0, 0, 0, 0, 0, 0, 0, 0, 2, 4, 0, 7, 7, 7, 7])
        (withTable tableS4)) = some ([2, 0, 1], slot2 4 2 (some [7, 7, 7, 7]) none) := by decide

/-- T-X4: FRAG on INGRESS. -/
theorem test_frag_on_ingress : shown .ingress (exec (.frag .ingress [0, 1, 2]) (start 0x10)) = some (.errIllegalOp, .nothing) := by
  decide

/-- P4 line 13: `.cw 0x06` on EGRESS. -/
theorem test_illegal_word :
    shown .egress (step { start 0x11 with inputs := [.command ⟨.egress, 0x06#8, .empty⟩] }) = some (.errIllegalOp, .nothing) := by
  decide

/-- R58: a line assembles to its command word and operand record; `pat(3, 254)` wraps. -/
theorem test_assemble_line : (Line.frag .egress (.cat (.pat 3 254) (.fill 1 7))).command []
    = some ⟨.egress, 0x04#8, .bytes [254, 255, 0, 7]⟩ := by decide

/-- A restarted run: after a fatal classification a command is refused, never run (R110). -/
theorem test_ended_run_is_refused :
    step { start 0 with endedE := true, inputs := [.command ⟨.egress, 0x03#8, .natural 1⟩] } = .refused (.runEnded .egress) := rfl

/-! ## Witnesses: for each statement with hypotheses, concrete values that meet them together -/

/-- A small configuration that meets every obligation of R29 as sender and as receiver. -/
def cfg0 : Cfg := { block := 16, maxPay := 4, minPay := 1, fragCap := 4, nslots := 3, maxDgram := 16 }

/-- The instance with `cfg0` after power-on, its seed being 5. -/
def s0 : State := { State.powerOn cfg0 with id := 5 }

/-- `SLOT[0]` holds one of three fragments of `Id` 3, `SLOT[1]` has completed `Id` 9, `SLOT[2]` lacks the last fragment of `Id` 7. -/
def s1 : State :=
  { s0 with table := {
      slots := #v[⟨3, 3, [some [9], none, none, none]⟩, ⟨9, 2, [none, none, none, none]⟩, ⟨7, 2, [some [1, 1, 1, 1], none, none, none]⟩]
      order := [2, 0, 1] } }

/-- `s1` with moves of the host to come. -/
def s1With (l : List Input) : State := { s1 with inputs := l }

/-- A 16-byte packet: `Id` and `Len` below 256. -/
def pkt (id fragN fragNum len : Byte) : Bytes := [id, 0, 0, 0, 0, 0, 0, 0, fragN, fragNum, len, 0, 2, 2, 2, 2]

/-- `SLOT[0]` holds three of the four entries of `Id` 3. -/
def s2 : State :=
  { s1 with table := { s1.table with slots := s1.table.slots.set 0 ⟨3, 4, [some [6], some [7], some [8], none]⟩ } }

/-- What a FRAG on EGRESS shows and the next state, as the statements' premises want them. -/
def FragOk (d : Bytes) (s t : State) (count : Nat) (ps : List Bytes) : Prop :=
  exec (.frag .egress d) s = .next t ∧ t.traceE = s.traceE ++ [⟨⟨.egress, 0x04#8, .bytes d⟩, .ok, .packets count ps⟩]

theorem witness_IllegalCommandsAreTheRest :
    decode ⟨.ingress, 0x00#8, .empty⟩ = .error .illegalOp ∧ decode ⟨.egress, 0x06#8, .bytes [1]⟩ = .error .illegalOp
    ∧ decode ⟨.egress, 0xFF#8, .empty⟩ = .error .illegalOp ∧ decode ⟨.ingress, 0x04#8, .bytes []⟩ = .error .illegalOp
    ∧ decode ⟨.egress, 0x05#8, .natural 3⟩ = .error .illegalOp := ⟨rfl, rfl, rfl, rfl, rfl⟩

theorem witness_HeaderCodecIsABijection : ([1, 2, 3, 4, 5, 6, 7, 8, 9, 10, 11, 12] : Bytes).length = 12 := by decide

/-- A FRAG for EGRESS at the head of the moves. -/
theorem witness_StepRunsTheDecodedCommand :
    let s := s1With [.command ⟨.egress, 0x04#8, .bytes [1]⟩, .reset .rstE]
    s.cfg.valid = true ∧ s.inputs = .command ⟨.egress, 0x04#8, .bytes [1]⟩ :: [.reset .rstE]
      ∧ s.hasEnded .egress = false ∧ (Instr.frag .egress [1]).engine = .egress := by decide
theorem witness_StepRunsTheDecodedCommand_decodes :
    decode ⟨.egress, 0x04#8, .bytes [1]⟩ = .ok (.frag .egress [1]) := rfl

/-- Each of the four clauses, at its edges: the words 0x00, 0x06 and 0xFF, FRAG for INGRESS, REASM for EGRESS. -/
theorem witness_IllegalCommandChangesNothing :
    ∀ c ∈ [(⟨.egress, 0x00#8, .empty⟩ : Command), ⟨.ingress, 0x06#8, .natural 2⟩, ⟨.egress, 0xFF#8, .bytes [1]⟩,
        ⟨.ingress, 0x04#8, .bytes [1]⟩, ⟨.egress, 0x05#8, .bytes []⟩],
      (s1With [.command c]).cfg.valid = true ∧ (s1With [.command c]).inputs = .command c :: []
      ∧ (s1With [.command c]).hasEnded c.engine = false
      ∧ (c.cw.toNat = 0 ∨ 6 ≤ c.cw.toNat ∨ (c.cw.toNat = 4 ∧ c.engine = .ingress) ∨ (c.cw.toNat = 5 ∧ c.engine = .egress)) := by
  decide

/-- Each clause of R28, and the legal edges 1, 65535 and 255. -/
theorem witness_InvalidConfigurationIsRefused :
    (∀ c ∈ [{ cfg0 with block := 0 }, { cfg0 with maxPay := 0 }, { cfg0 with maxPay := 65536 }, { cfg0 with fragCap := 0 },
        { cfg0 with fragCap := 256 }, { cfg0 with nslots := 2 }, { cfg0 with nslots := 4 }, { cfg0 with maxDgram := 0 }],
      Cfg.valid c = false)
    ∧ ∀ c ∈ [({ block := 1, maxPay := 1, minPay := 0, fragCap := 1, nslots := 3, maxDgram := 1 } : Cfg),
        { cfg0 with maxPay := 65535, fragCap := 255 }], c.valid = true := by decide

theorem witness_EveryCommandCompletes : s1.cfg.valid = true := by decide

theorem witness_WithoutInputTheEnginesWait : (s1With []).cfg.valid = true ∧ (s1With []).inputs = [] := by decide

/-- Each clause: HENC, ALIGN, HDEC, FRAG and REASM without their records. -/
theorem witness_MismatchedOperandIsRefused :
    ∀ c ∈ [(⟨.egress, 0x01#8, .bytes []⟩ : Command), ⟨.ingress, 0x03#8, .empty⟩, ⟨.egress, 0x02#8, .natural 1⟩,
        ⟨.egress, 0x04#8, .empty⟩, ⟨.ingress, 0x05#8, .natural 0⟩],
      (s1With [.command c]).cfg.valid = true ∧ (s1With [.command c]).inputs = .command c :: []
      ∧ (s1With [.command c]).hasEnded c.engine = false ∧ opcodeOf c.engine c.cw ≠ none
      ∧ (opcodeOf c.engine c.cw).bind (fun op => instrOf c.engine op c.operand) = none := by decide

theorem witness_HencEncodesTheFields : s1.cfg.valid = true := by decide

/-- Lengths 11 and 12. -/
theorem witness_HdecDecodesTheFields :
    s1.cfg.valid = true ∧ (List.replicate 11 (0 : Byte)).length < 12 ∧ 12 ≤ (List.replicate 12 (0 : Byte)).length := by decide

theorem witness_AlignGivesTheSmallestMultiple : s1.cfg.valid = true := by decide

theorem witness_AlignUpLaws : 1 ≤ 1 ∧ alignUp 7 1 = 7 := by decide

/-- Both ends of the interval `(2·7, 3·7]`, the smallest block that is not injective, and equal arguments. -/
theorem witness_AlignUpMonotoneNotInjective :
    (1 ≤ 7 ∧ 2 * 7 < 15 ∧ 15 ≤ (2 + 1) * 7 ∧ alignUp 15 7 = 21) ∧ (2 * 7 < 21 ∧ 21 ≤ (2 + 1) * 7 ∧ alignUp 21 7 = 21)
    ∧ (2 ≤ 2 ∧ alignUp 1 2 = alignUp 2 2) ∧ (14 ≤ 14 ∧ alignUp 14 7 ≤ alignUp 14 7) := by decide

/-- Every clause at its edge: 0 bytes, `MAX_DGRAM` and one more, 255 fragments and 256. -/
theorem witness_FragSplitsTheDatagram :
    s1.cfg.valid = true ∧ fragFault cfg0 0 = some .frEmpty ∧ fragFault cfg0 1 = none ∧ fragFault cfg0 16 = none
    ∧ fragFault cfg0 17 = some .frTooLong ∧ fragFault { cfg0 with maxDgram := 2000 } 1020 = none
    ∧ fragFault { cfg0 with maxDgram := 2000 } 1021 = some .frTooMany := by decide

/-- One byte, and a length that is not a multiple of the count. -/
theorem witness_FragmentLengths :
    cfg0.valid = true ∧ 1 ≤ ([1] : Bytes).length ∧ 1 ≤ (patBytes 13 0).length ∧ fragCount cfg0 13 ≤ 255 := by decide

/-- One packet, and (`MAX_PAY` + 1) two, of a FRAG that ends with `OK`. -/
theorem witness_FragmentsReproduceTheDatagram :
    (∃ t ps, FragOk [7, 8, 9, 1] s1 t 1 ps ∧ ([7, 8, 9, 1] : Bytes).length ≤ s1.cfg.maxPay
      ∧ s1.cfg.valid = true ∧ s1.cfg.block = s1.cfg.block ∧ ∀ p ∈ ps, 12 + s1.cfg.minPay ≤ p.length)
    ∧ ∃ t ps, FragOk [7, 8, 9, 1, 2] s1 t 2 ps := by
  refine ⟨⟨_, _, ⟨rfl, rfl⟩, ?_⟩, _, _, rfl, rfl⟩
  decide

theorem witness_EmittedPacketsAreWellFormed : ∃ t ps, FragOk [7, 8, 9, 1, 2] s1 t 2 ps ∧ 0 < ps.length := by
  refine ⟨_, _, ⟨rfl, rfl⟩, ?_⟩
  decide

/-- A FRAG that ends with `OK`, one that ends with a fault status, and a command that is no FRAG. -/
theorem witness_OnlySuccessfulFragAdvancesId :
    (∃ t, exec (.frag .egress [1]) { s1 with id := 0xFFFFFFFFFFFFFFFF } = .next t
      ∧ t.traceE.map Event.status = [.ok] ∧ t.id = 0)
    ∧ (∃ t, exec (.frag .egress []) s1 = .next t ∧ Observed ⟨⟨.egress, 0x04#8, .bytes []⟩, .frEmpty, .nothing⟩ s1 t)
    ∧ ∃ t, exec (.align .egress 1) s1 = .next t ∧ Observed ⟨⟨.egress, 0x03#8, .natural 1⟩, .ok, .natural 16⟩ s1 t := by
  refine ⟨⟨_, rfl, ?_⟩, ⟨_, rfl, ?_⟩, _, rfl, ?_⟩ <;> decide

/-- 12 bytes, one below the floor. -/
theorem witness_ReasmRejectsShortPackets :
    s1.cfg.valid = true ∧ (List.replicate 12 (0 : Byte)).length < 12 + s1.cfg.minPay := by decide

/-- At the floor with a length that is no multiple of the block, and a multiple of the block with `Len` 4 and 5. -/
theorem witness_ReasmRejectsWrongLengths :
    s1.cfg.valid = true ∧ 12 + s1.cfg.minPay ≤ (List.replicate 13 (0 : Byte)).length
    ∧ 12 + s1.cfg.minPay ≤ (pkt 4 0 2 4).length ∧ lengthViolation cfg0 (pkt 4 0 2 4) = none
    ∧ lengthViolation cfg0 (pkt 4 0 2 5) = some .pvLength
    ∧ lengthViolation cfg0 (List.replicate 13 (0 : Byte)) = some .pvLength := by decide

/-- `FragNum` 0 and 1, `Len` 0 and 4, any `FragN`. -/
theorem witness_ReasmFastPathDelivers :
    ∀ p ∈ [pkt 3 9 0 0, pkt 3 9 1 4], s1.cfg.valid = true ∧ lengthViolation s1.cfg p = none
      ∧ (hdrDecode p).fragNum.toNat ≤ 1 := by decide

/-- `FragNum = FRAG_CAP + 1`, and `FragN = FragNum`, on a hit and on a miss; `FragNum = FRAG_CAP` with the last `FragN` is good. -/
theorem witness_ReasmRejectsBadHeaders :
    (∀ p ∈ [pkt 3 0 5 4, pkt 4 0 5 4, pkt 3 4 4 4, pkt 4 2 2 4], s1.cfg.valid = true ∧ lengthViolation s1.cfg p = none
      ∧ 2 ≤ (hdrDecode p).fragNum.toNat
      ∧ (s1.cfg.fragCap < (hdrDecode p).fragNum.toNat ∨ (hdrDecode p).fragNum.toNat ≤ (hdrDecode p).fragN.toNat))
    ∧ badHeader s1.cfg (hdrDecode (pkt 4 3 4 4)) = false := by decide

/-- The second slot of the order, `SLOT[0]`, holds `Id` 3 under a count of 3; the packet says 2. -/
theorem witness_ReasmRejectsCountMismatch :
    s1.cfg.valid = true ∧ lengthViolation s1.cfg (pkt 3 1 2 4) = none ∧ 2 ≤ (hdrDecode (pkt 3 1 2 4)).fragNum.toNat
    ∧ badHeader s1.cfg (hdrDecode (pkt 3 1 2 4)) = false ∧ s1.table.order = [2] ++ 0 :: [1]
    ∧ (∀ j ∈ [(2 : SlotIx)], (s1.table.slot j).id ≠ (hdrDecode (pkt 3 1 2 4)).id)
    ∧ (s1.table.slot 0).id = (hdrDecode (pkt 3 1 2 4)).id ∧ (s1.table.slot 0).count ≠ 0
    ∧ (s1.table.slot 0).expected ≠ (hdrDecode (pkt 3 1 2 4)).fragNum := by decide

/-- A second fragment and a duplicate of the first of `Id` 3, and a new reassembly in the completed slot of `Id` 9 under a new
count. -/
theorem witness_ReasmHitStoresTheFragment :
    ∀ w ∈ [(pkt 3 1 3 4, (0 : SlotIx), [(2 : SlotIx)], [(1 : SlotIx)], 2), (pkt 3 0 3 0, 0, [2], [1], 1),
        (pkt 9 3 4 4, 1, [2, 0], [], 0)],
      s1.Inv ∧ lengthViolation s1.cfg w.1 = none ∧ 2 ≤ (hdrDecode w.1).fragNum.toNat
      ∧ badHeader s1.cfg (hdrDecode w.1) = false ∧ s1.table.order = w.2.2.1 ++ w.2.1 :: w.2.2.2.1
      ∧ (∀ j ∈ w.2.2.1, (s1.table.slot j).id ≠ (hdrDecode w.1).id) ∧ (s1.table.slot w.2.1).id = (hdrDecode w.1).id
      ∧ ((s1.table.slot w.2.1).count = 0 ∨ (s1.table.slot w.2.1).expected = (hdrDecode w.1).fragNum)
      ∧ w.2.2.2.2 < (hdrDecode w.1).fragNum.toNat ∧ w.2.2.2.2 ≠ (hdrDecode w.1).fragN.toNat
      ∧ (s1.table.slot w.2.1).fragAt w.2.2.2.2 = none := by decide

/-- The last fragment of `Id` 3 in a slot filled to `FRAG_CAP`. -/
theorem witness_ReasmCompletesTheDatagram :
    let p := pkt 3 3 4 4
    let frags : List Bytes := [[6], [7], [8], [2, 2, 2, 2]]
    s2.Inv ∧ lengthViolation s2.cfg p = none ∧ 2 ≤ (hdrDecode p).fragNum.toNat ∧ badHeader s2.cfg (hdrDecode p) = false
    ∧ s2.table.order = [2] ++ 0 :: [1] ∧ (∀ j ∈ [(2 : SlotIx)], (s2.table.slot j).id ≠ (hdrDecode p).id)
    ∧ (s2.table.slot 0).id = (hdrDecode p).id ∧ frags.length = (hdrDecode p).fragNum.toNat
    ∧ (∀ j (hj : j < frags.length), j ≠ (hdrDecode p).fragN.toNat → (s2.table.slot 0).fragAt j = some frags[j])
    ∧ frags[(hdrDecode p).fragN.toNat]? = some ((p.drop 12).take (hdrDecode p).len.toNat)
    ∧ (s2.table.slot 0).expected = (hdrDecode p).fragNum := by decide

theorem witness_ReasmMissEvictsTheTail :
    s1.Inv ∧ lengthViolation s1.cfg (pkt 4 3 4 0) = none ∧ 2 ≤ (hdrDecode (pkt 4 3 4 0)).fragNum.toNat
    ∧ badHeader s1.cfg (hdrDecode (pkt 4 3 4 0)) = false ∧ (∀ j, (s1.table.slot j).id ≠ (hdrDecode (pkt 4 3 4 0)).id)
    ∧ s1.table.order = [2, 0] ++ [1] := by decide

/-- Every status of a REASM is the answer to some packet. -/
theorem witness_ReasmStatusIsTheFirstCause :
    s1.Inv ∧ [[], pkt 3 0 2 5, pkt 3 9 1 4, pkt 3 4 4 4, pkt 3 1 2 4, pkt 3 1 3 4, pkt 4 0 2 4, pkt 7 1 2 4].map
        (fun p => (reassemble s1.cfg p s1.table).status)
      = [.pvShort, .pvLength, .emitFast, .pvBadHeader, .pvCountMismatch, .pending, .pending, .emitReasm] := by decide

/-- Each of the five statuses. -/
theorem witness_ReasmRejectionWritesNothing :
    ∀ w ∈ [(([] : Bytes), Status.pvShort), (pkt 3 0 2 5, .pvLength), (pkt 3 4 4 4, .pvBadHeader), (pkt 3 1 2 4, .pvCountMismatch),
        (pkt 3 9 1 0, .emitFast)], shown .ingress (exec (.reasm .ingress w.1) s1) = some (w.2, (reassemble cfg0 w.1 s1.table).output) := by
  decide
theorem witness_ReasmRejectionWritesNothing_observed :
    ∃ t, exec (.reasm .ingress (pkt 3 1 2 4)) s1 = .next t
      ∧ Observed ⟨⟨.ingress, 0x05#8, .bytes (pkt 3 1 2 4)⟩, .pvCountMismatch, .nothing⟩ s1 t := by
  refine ⟨_, rfl, ?_⟩
  decide

/-- A slot left alone, a slot of the packet's `Id`, and the tail on a miss. -/
theorem witness_ReasmTouchesOnlyItsOwnSlot :
    s1.Inv ∧ (∃ t, exec (.reasm .ingress (pkt 3 1 3 4)) s1 = .next t ∧ t.table.slot 1 = s1.table.slot 1
      ∧ t.table.slot 0 ≠ s1.table.slot 0)
    ∧ ∃ t, exec (.reasm .ingress (pkt 4 0 2 4)) s1 = .next t ∧ t.table.slot 1 ≠ s1.table.slot 1
      ∧ s1.table.order.getLast? = some 1 := by
  refine ⟨by decide, ⟨_, rfl, ?_⟩, _, rfl, ?_⟩ <;> decide

/-- Unchanged, to the head, to the tail. -/
theorem witness_OrderChangesOnlyByOneMove :
    s1.Inv ∧ (∃ t, exec (.frag .egress [1]) s1 = .next t ∧ t.table.order = s1.table.order)
    ∧ (∃ t, exec (.reasm .ingress (pkt 3 1 3 4)) s1 = .next t ∧ t.table.order = 0 :: ([2] ++ [1]))
    ∧ ∃ t, exec (.reasm .ingress (pkt 7 1 2 4)) s1 = .next t ∧ t.table.order = [] ++ [0, 1] ++ [2] := by
  refine ⟨by decide, ⟨_, rfl, ?_⟩, ⟨_, rfl, ?_⟩, _, rfl, ?_⟩ <;> decide

theorem witness_ReassembledLengthIsBounded :
    s1.Inv ∧ ∃ t, exec (.reasm .ingress (pkt 7 1 2 4)) s1 = .next t
      ∧ Observed ⟨⟨.ingress, 0x05#8, .bytes (pkt 7 1 2 4)⟩, .emitReasm, .datagram [1, 1, 1, 1, 2, 2, 2, 2]⟩ s1 t := by
  refine ⟨by decide, _, rfl, ?_⟩
  decide

/-- The replay arrives under another count, up to `FRAG_CAP`. -/
theorem witness_ReplayStartsANewReassembly :
    s1.Inv ∧ (hdrDecode (pkt 7 1 2 4)).id ≠ 0 ∧ (hdrDecode (pkt 7 0 4 4)).id = (hdrDecode (pkt 7 1 2 4)).id
    ∧ lengthViolation s1.cfg (pkt 7 0 4 4) = none ∧ 2 ≤ (hdrDecode (pkt 7 0 4 4)).fragNum.toNat
    ∧ badHeader s1.cfg (hdrDecode (pkt 7 0 4 4)) = false
    ∧ ∃ t, exec (.reasm .ingress (pkt 7 1 2 4)) s1 = .next t
      ∧ Observed ⟨⟨.ingress, 0x05#8, .bytes (pkt 7 1 2 4)⟩, .emitReasm, .datagram [1, 1, 1, 1, 2, 2, 2, 2]⟩ s1 t := by
  refine ⟨by decide, by decide, by decide, by decide, by decide, by decide, _, rfl, ?_⟩
  decide

theorem witness_WrongEngineIsIllegal : s1.cfg.valid = true := by decide

/-- A protocol violation and a fault. -/
theorem witness_NonSuccessIsPrecise :
    (∃ t, exec (.reasm .ingress (pkt 3 4 4 4)) s1 = .next t
      ∧ Observed ⟨⟨.ingress, 0x05#8, .bytes (pkt 3 4 4 4)⟩, .pvBadHeader, .nothing⟩ s1 t
      ∧ Status.pvBadHeader.kind ≠ .success)
    ∧ ∃ t, exec (.hdec .ingress []) s1 = .next t
      ∧ Observed ⟨⟨.ingress, 0x02#8, .bytes []⟩, .errShortBuffer, .nothing⟩ s1 t ∧ Status.errShortBuffer.kind ≠ .success := by
  refine ⟨⟨_, rfl, ?_⟩, _, rfl, ?_⟩ <;> decide

/-- An emission on the fast path, one by reassembly, and a packet that leaves its datagram pending. -/
theorem witness_ReasmPresentsADatagramOnlyOnEmit :
    (∃ t, exec (.reasm .ingress (pkt 3 9 1 0)) s1 = .next t
      ∧ Observed ⟨⟨.ingress, 0x05#8, .bytes (pkt 3 9 1 0)⟩, .emitFast, .datagram []⟩ s1 t)
    ∧ (∃ t, exec (.reasm .ingress (pkt 7 1 2 4)) s1 = .next t
      ∧ Observed ⟨⟨.ingress, 0x05#8, .bytes (pkt 7 1 2 4)⟩, .emitReasm, .datagram [1, 1, 1, 1, 2, 2, 2, 2]⟩ s1 t)
    ∧ ∃ t, exec (.reasm .ingress (pkt 3 1 3 4)) s1 = .next t
      ∧ Observed ⟨⟨.ingress, 0x05#8, .bytes (pkt 3 1 3 4)⟩, .pending, .nothing⟩ s1 t := by
  refine ⟨⟨_, rfl, ?_⟩, ⟨_, rfl, ?_⟩, _, rfl, ?_⟩ <;> decide

/-- A step that appends, from a state with a fault in its trace. -/
theorem witness_TracesOnlyGrow :
    let s := { s1With [.command ⟨.ingress, 0x06#8, .empty⟩] with traceE := [⟨⟨.egress, 0x04#8, .bytes []⟩, .frEmpty, .nothing⟩] }
    s.faultFree = false ∧ ∃ t, step s = .next t ∧ t.traceI.length = 1 := by
  refine ⟨by decide, _, rfl, ?_⟩
  decide

/-- A reset step, and a command step. -/
theorem witness_ConfigurationNeverChanges :
    (∃ t, step (s1With [.reset .powerOn]) = .next t) ∧ ∃ t, step (s1With [.command ⟨.egress, 0x04#8, .bytes [1]⟩]) = .next t :=
  ⟨⟨_, rfl⟩, _, rfl⟩

/-- Both resets, from a table in use. -/
theorem witness_IngressResetState :
    ∀ r ∈ [ResetEvent.rstI, ResetEvent.powerOn], (s1With [.reset r]).cfg.valid = true
      ∧ (s1With [.reset r]).inputs = .reset r :: [] ∧ (r = .rstI ∨ r = .powerOn) := by decide

theorem witness_EgressResetLeavesIngress :
    (s1With [.reset .rstE]).cfg.valid = true ∧ (s1With [.reset .rstE]).inputs = .reset .rstE :: [] := by decide

/-- Each host event, and a command to an ended engine. -/
theorem witness_HostEndsRuns :
    (∀ ev ∈ [HostEvent.transientTransportError, HostEvent.malformedOutputRejection, HostEvent.fatal],
      (s1With [.host ev]).cfg.valid = true ∧ (s1With [.host ev]).inputs = .host ev :: [])
    ∧ ({ s1With [.command ⟨.ingress, 0x05#8, .bytes []⟩] with endedI := true } : State).hasEnded .ingress = true := by decide

/-- 255 fragments at most, exactly; and a FRAG on each engine. -/
theorem witness_FittingCountNeverTooMany :
    Cfg.fitsCount { cfg0 with maxPay := 1, maxDgram := 255 } ∧ s1.cfg.fitsCount
    ∧ (∃ t, exec (.frag .egress []) s1 = .next t ∧ Observed ⟨⟨.egress, 0x04#8, .bytes []⟩, .frEmpty, .nothing⟩ s1 t)
    ∧ ∃ t, exec (.frag .ingress [1]) s1 = .next t
      ∧ Observed ⟨⟨.ingress, 0x04#8, .bytes [1]⟩, .errIllegalOp, .nothing⟩ s1 t := by
  refine ⟨?_, ?_, ⟨_, rfl, ?_⟩, _, rfl, ?_⟩
  · unfold Cfg.fitsCount; decide
  · unfold Cfg.fitsCount; decide
  · decide
  · decide

/-- A receiver at the largest floor R29(c) allows, 4 for a block of 16. -/
theorem witness_EmittedPacketsPassTheFloor :
    (∃ t ps, FragOk [7, 8, 9, 1, 2] s1 t 2 ps ∧ 0 < ps.length) ∧ ({ cfg0 with minPay := 4 } : Cfg).block = s1.cfg.block
    ∧ Cfg.fitsFloor { cfg0 with minPay := 4 } := by
  refine ⟨⟨_, _, ⟨rfl, rfl⟩, ?_⟩, rfl, ?_⟩
  · decide
  · unfold Cfg.fitsFloor; decide

theorem witness_PowerOnMeetsTheInvariant : cfg0.valid = true ∧ ({ cfg0 with fragCap := 1 } : Cfg).valid = true := by decide

/-- From a table in use: an emission, an eviction, a reset. -/
theorem witness_StepKeepsTheInvariant :
    s1.Inv ∧ (∃ t, step (s1With [.command ⟨.ingress, 0x05#8, .bytes (pkt 7 1 2 4)⟩]) = .next t ∧ t.table.order = [0, 1, 2])
    ∧ (∃ t, step (s1With [.command ⟨.ingress, 0x05#8, .bytes (pkt 4 3 4 4)⟩]) = .next t ∧ t.table.order = [1, 2, 0])
    ∧ ∃ t, step (s1With [.reset .rstI]) = .next t := by
  refine ⟨by decide, ⟨_, rfl, ?_⟩, ⟨_, rfl, ?_⟩, _, rfl⟩ <;> decide

/-- A FRAG in states that differ in the table, and a REASM in states that differ in `ID`. -/
theorem witness_CommandsReadAndWriteOnlyTheirOwnState :
    s1.cfg = s0.cfg ∧ s1.id = s0.id ∧ s1.table ≠ s0.table ∧ s1.table = ({ s1 with id := 6 } : State).table
    ∧ (∃ t, exec (.frag .egress []) s1 = .next t ∧ Observed ⟨⟨.egress, 0x04#8, .bytes []⟩, .frEmpty, .nothing⟩ s1 t)
    ∧ ∃ t, exec (.reasm .ingress (pkt 3 1 3 4)) s1 = .next t
      ∧ Observed ⟨⟨.ingress, 0x05#8, .bytes (pkt 3 1 3 4)⟩, .pending, .nothing⟩ s1 t := by
  refine ⟨by decide, by decide, by decide, by decide, ⟨_, rfl, ?_⟩, _, rfl, ?_⟩ <;> decide

/-- Two steps that both answer, in the EGRESS-first order. -/
theorem witness_EnginesCommute :
    ∃ t, core.run 2 (s1.setInputs [.command ⟨.egress, 0x04#8, .bytes [1]⟩, .command ⟨.ingress, 0x05#8, .bytes (pkt 3 1 3 4)⟩])
      = .next t := ⟨_, rfl⟩

/-- Two packets, and `FRAG_CAP` of them out of order. -/
theorem witness_AnyArrivalOrderDelivers :
    s1.Inv ∧ s1.cfg.fitsFloor ∧ s1.endedI = false ∧ (∀ k, (s1.table.slot k).id ≠ s1.id)
    ∧ (∃ t ps, FragOk [7, 8, 9, 1, 2] s1 t 2 ps) ∧ (∃ t ps, FragOk (patBytes 16 0) s1 t 4 ps)
    ∧ 2 ≤ 2 ∧ 4 ≤ s1.cfg.fragCap ∧ [3, 1, 0, 2].Perm (List.range 4) := by
  refine ⟨by decide, ?_, by decide, by decide, ⟨_, _, rfl, rfl⟩, ⟨_, _, rfl, rfl⟩, by decide⟩
  unfold Cfg.fitsFloor; decide

/-- One byte and `MAX_DGRAM`. -/
theorem witness_LoopbackDelivers :
    s1.Inv ∧ s1.cfg.fitsFloor ∧ s1.cfg.fitsReceiver s1.cfg ∧ s1.endedE = false ∧ s1.endedI = false
    ∧ (∀ k, (s1.table.slot k).id ≠ s1.id) ∧ (1 ≤ ([1] : Bytes).length ∧ ([1] : Bytes).length ≤ s1.cfg.maxDgram)
    ∧ 1 ≤ (patBytes 16 0).length ∧ (patBytes 16 0).length ≤ s1.cfg.maxDgram := by
  refine ⟨by decide, ?_, ?_, by decide⟩
  · unfold Cfg.fitsFloor; decide
  · unfold Cfg.fitsReceiver; decide

end Sys2Proof.Tests
end

section
/-! PROOFS. The scope statements (spec 00_scope R7, 70 R122, R124): a command that decodes is executed by one step, and executing
one always completes. -/

namespace Sys2Proof.Machine

/-- A presented command that decodes is executed. -/
theorem present_of_decode_ok {c : Command} {i : Instr} (h : decode c = .ok i) (s : State) : present c s = exec i s := by
  simp [present, h]

/-- Under a legal configuration every arm of `exec` ends with `finish`, on each branch of its checks, so it answers a next
state. The converse, that a next state needs a legal configuration, is part of `exec_cases`. -/
theorem exists_exec_eq_next {s : State} (hv : s.cfg.valid = true) (i : Instr) : ∃ t, exec i s = .next t := by
  cases i with
  | henc e id fragn fragnum len => exact ⟨_, whenValid_of_valid hv _⟩
  | hdec e buf =>
    simp only [exec, execHdec, whenValid_of_valid hv]
    cases hdecFault buf with
    | some st => exact ⟨_, rfl⟩
    | none => exact ⟨_, rfl⟩
  | align e n => exact ⟨_, whenValid_of_valid hv _⟩
  | frag e dgram =>
    simp only [exec, execFrag, whenValid_of_valid hv]
    cases e with
    | ingress => exact ⟨_, rfl⟩
    | egress =>
      cases fragFault s.cfg dgram.length with
      | some st => exact ⟨_, rfl⟩
      | none => exact ⟨_, rfl⟩
  | reasm e pkt =>
    cases e with
    | ingress => exact ⟨_, exec_reasm hv⟩
    | egress => exact ⟨_, whenValid_of_valid hv _⟩

/-- Settles O8: `exec` answers a next state (`exists_exec_eq_next`), and whatever it answers shows one event of the
instruction's encoding with the frame of `Observed` (`exec_observed`). -/
theorem everyCommandCompletes : Obligations.EveryCommandCompletes := by
  intro i s hv
  obtain ⟨t, ht⟩ := exists_exec_eq_next hv i
  obtain ⟨-, ev, hcmd, hobs, -⟩ := exec_observed ht
  exact ⟨t, ev, ht, hcmd, hobs⟩

/-- Settles O5: the step presents the command at the state with the move taken off (`step_command`), and presenting a command
that decodes is executing it. -/
theorem stepRunsTheDecodedCommand : Obligations.StepRunsTheDecodedCommand := by
  intro s c rest i hv hinputs hrun hdec
  rw [step_command hv hinputs, hrun, if_neg Bool.false_ne_true, present_of_decode_ok hdec]

end Sys2Proof.Machine
end

section
/-! PROOFS. The invariant (spec 10_state R31, R32): it holds at power-on and every step keeps it; with it the configuration
(R27), ORDER (R24, R25) and the bound on a reassembled datagram (R33). -/

namespace Sys2Proof.Machine

/-! ## One slot -/

theorem bufRead_length_le (b : Bytes) (o n : Nat) : (bufRead b o n).length ≤ n := List.length_take_le _ _

/-- A slot without a fragment meets the slot invariant as soon as its capacity and its count do. -/
theorem slot_ok_of_empty {cfg : Cfg} {sl : Slot} (hlen : sl.frag.length = cfg.fragCap)
    (hexp : sl.expected.toNat ≤ cfg.fragCap) (hempty : ∀ j, sl.fragAt j = none) : sl.Ok cfg := by
  refine ⟨hlen, by simp [hempty], hexp, by simp [hempty], fun _ => (count_eq_zero_iff sl).2 hempty, ?_⟩
  have hc : sl.complete = true → False := by
    intro hc
    simp only [Slot.complete, Bool.and_eq_true, decide_eq_true_eq, allPresent_iff] at hc
    obtain ⟨hpos, hall⟩ := hc
    simpa [hempty] using hall 0 hpos
  simpa using hc

theorem slot_reset_ok (cfg : Cfg) : (Slot.reset cfg.fragCap).Ok cfg :=
  slot_ok_of_empty (by simp [Slot.reset]) (by simp [Slot.reset]) (by simp)

/-- What a slot meets once a packet with header `h` has been accepted into it, and again once the packet's fragment is stored:
the slot invariant under the packet's count, except that the slot may be complete. -/
structure Slot.Ready (cfg : Cfg) (h : Header) (sl : Slot) : Prop where
  length : sl.frag.length = cfg.fragCap
  expected : sl.expected = h.fragNum
  bounded : ∀ j, ((sl.fragAt j).getD []).length ≤ 65535
  below : ∀ j, (sl.fragAt j).isSome = true → j < h.fragNum.toNat

/-- An accepted hit readies the slot: either it was empty, or it already ran under the packet's count. -/
theorem setExpected_ready {cfg : Cfg} {h : Header} {sl : Slot} (hok : sl.Ok cfg)
    (hacc : sl.count = 0 ∨ sl.expected = h.fragNum) : (sl.setExpected h.fragNum).Ready cfg h := by
  obtain ⟨hlen, hbound, -, hbelow, -, -⟩ := hok
  have hout : ∀ j, ¬ j < sl.frag.length → sl.fragAt j = none := fun j hj => by simp [Slot.fragAt, Nat.le_of_not_lt hj]
  refine ⟨hlen, rfl, fun j => ?_, fun j hj => ?_⟩
  · by_cases hjl : j < sl.frag.length
    · exact hbound j hjl
    · simp [hout j hjl]
  · rcases hacc with hempty | hexp
    · simp [(count_eq_zero_iff sl).1 hempty j] at hj
    · by_cases hjl : j < sl.frag.length
      · exact hexp ▸ hbelow j hjl hj
      · simp [hout j hjl] at hj

theorem fresh_ready (cfg : Cfg) (h : Header) : (Slot.fresh cfg.fragCap h).Ready cfg h :=
  ⟨by simp, rfl, by simp, by simp⟩

theorem store_ready {cfg : Cfg} {h : Header} {sl : Slot} {pay : Bytes} (hr : sl.Ready cfg h)
    (hN : h.fragN.toNat < h.fragNum.toNat) (hcap : h.fragNum.toNat ≤ cfg.fragCap) (hpay : pay.length ≤ 65535) :
    (sl.store h.fragN.toNat pay).Ready cfg h := by
  have hsame := store_fragAt_same sl h.fragN.toNat pay (by rw [hr.length]; omega)
  refine ⟨by simpa using hr.length, hr.expected, fun j => ?_, fun j hj => ?_⟩
  · by_cases hjn : j = h.fragN.toNat
    · subst hjn; simpa [hsame] using hpay
    · simpa [store_fragAt_ne sl pay hjn] using hr.bounded j
  · by_cases hjn : j = h.fragN.toNat
    · exact hjn ▸ hN
    · exact hr.below j (by simpa [store_fragAt_ne sl pay hjn] using hj)

/-- A ready slot that still lacks a fragment meets the slot invariant. -/
theorem slot_ok_of_ready {cfg : Cfg} {h : Header} {sl : Slot} (hr : sl.Ready cfg h)
    (hpos : 1 ≤ h.fragNum.toNat) (hcap : h.fragNum.toNat ≤ cfg.fragCap)
    (hlack : sl.allPresent h.fragNum.toNat = false) : sl.Ok cfg := by
  obtain ⟨hlen, hexp, hbound, hbelow⟩ := hr
  refine ⟨hlen, fun j _ => hbound j, hexp ▸ hcap, fun j _ hj => hexp ▸ hbelow j hj, fun h0 => ?_, ?_⟩
  · rw [← hexp, h0] at hpos
    simp at hpos
  · simp [Slot.complete, hexp, hlack]

/-- The fragments of a slot, each at most `b` bytes long, gather to at most `n · b` bytes. -/
theorem gather_length_le {sl : Slot} {b : Nat} (h : ∀ j, ((sl.fragAt j).getD []).length ≤ b) (n : Nat) :
    (sl.gather n).length ≤ n * b := by
  induction n with
  | zero => simp [Slot.gather]
  | succ n ih =>
    have hsplit : sl.gather (n + 1) = sl.gather n ++ (sl.fragAt n).getD [] := by
      simp [Slot.gather, List.range_succ, List.flatMap_append]
    rw [hsplit, List.length_append, Nat.succ_mul]
    exact Nat.add_le_add ih (h n)

/-! ## The table -/

theorem mem_order {t : DefragTable} (h : t.order.Perm [0, 1, 2]) (k : SlotIx) : k ∈ t.order :=
  h.mem_iff.2 (by revert k; decide)

/-- The table `u` in the middle of a slow path from `t`: slot `k` has been readied for the packet and stands at the head of
ORDER, its `Id` still shared with no other slot unless it is 0; the rest is as in `t`. -/
structure DefragTable.ReadyAt (cfg : Cfg) (h : Header) (k : SlotIx) (t u : DefragTable) : Prop where
  ready : (u.slot k).Ready cfg h
  others : ∀ k', k' ≠ k → u.slot k' = t.slot k'
  unique : ∀ k', k' ≠ k → (t.slot k').id = (u.slot k).id → (u.slot k).id = 0
  order : u.order = k :: t.order.filter (fun j => j ≠ k)

theorem acceptHit_readyAt {cfg : Cfg} {h : Header} {k : SlotIx} {t : DefragTable} (hok : t.Ok cfg)
    (hm : countMismatch h k t = false) : DefragTable.ReadyAt cfg h k t (acceptHit h k t) := by
  obtain ⟨hslots, -, hids⟩ := hok
  have hacc : (t.slot k).count = 0 ∨ (t.slot k).expected = h.fragNum := by
    simpa [countMismatch, or_iff_not_imp_left] using hm
  exact ⟨by simpa using setExpected_ready (hslots k) hacc, fun k' hk' => acceptHit_slot_ne h t hk',
    fun k' hk' he => by simpa using hids k k' hk'.symm (by simpa using he.symm), rfl⟩

theorem acceptMiss_readyAt {cfg : Cfg} {h : Header} {t : DefragTable} (hmiss : ∀ k, (t.slot k).id ≠ h.id) (k : SlotIx) :
    DefragTable.ReadyAt cfg h k t (acceptMiss cfg h k t) :=
  ⟨by simpa using fresh_ready cfg h, fun k' hk' => acceptMiss_slot_ne cfg h t hk',
    fun k' _ he => absurd (by simpa using he) (hmiss k'), rfl⟩

/-- Everything a REASM does to a table that meets the invariant: nothing, or it readies one slot and stores the packet's
fragment there. -/
theorem reassemble_stores {cfg : Cfg} {t : DefragTable} (hok : t.Ok cfg) (p : Bytes) :
    ((reassemble cfg p t).table = t ∧ (reassemble cfg p t).status ≠ .emitReasm)
    ∨ (2 ≤ (hdrDecode p).fragNum.toNat ∧ badHeader cfg (hdrDecode p) = false
      ∧ ∃ k u, DefragTable.ReadyAt cfg (hdrDecode p) k t u
        ∧ reassemble cfg p t = storeFragment cfg (hdrDecode p) (bufRead p 12 (hdrDecode p).len.toNat) k u) := by
  obtain ⟨htab, hst⟩ | ⟨-, hn, hb, ⟨k, -, hm, hr⟩ | ⟨hmiss, hr⟩⟩ := reassemble_cases cfg p t
  · refine .inl ⟨htab, fun he => ?_⟩
    simp [he, Status.kind] at hst
  · exact .inr ⟨hn, hb, k, _, acceptHit_readyAt hok hm, hr⟩
  · have hnone : ∀ k, (t.slot k).id ≠ (hdrDecode p).id := fun k => lookup_eq_none.1 hmiss k (mem_order hok.2.1 k)
    exact .inr ⟨hn, hb, t.tail, _, acceptMiss_readyAt hnone _, hr⟩

/-- Where a store leaves ORDER and the slot it wrote: at the head with the fragment in it, or cleared at the tail. -/
theorem storeFragment_table (cfg : Cfg) (h : Header) (pay : Bytes) (k : SlotIx) (u : DefragTable) :
    (((u.slot k).store h.fragN.toNat pay).allPresent h.fragNum.toNat = false
      ∧ (storeFragment cfg h pay k u).table = u.setSlot k ((u.slot k).store h.fragN.toNat pay))
    ∨ (storeFragment cfg h pay k u).table
        = (u.setSlot k (((u.slot k).store h.fragN.toNat pay).clear cfg.fragCap)).demote k := by
  cases ha : ((u.slot k).store h.fragN.toNat pay).allPresent h.fragNum.toNat with
  | false => exact .inl ⟨rfl, by rw [storeFragment_pending ha]⟩
  | true => exact .inr (by rw [storeFragment_complete ha])

/-- Slot `k` written and ORDER permuted: what the table invariant asks of it. -/
theorem table_ok_of_slot {cfg : Cfg} {t v : DefragTable} {k : SlotIx} (hok : t.Ok cfg) (hperm : v.order.Perm [0, 1, 2])
    (hk : (v.slot k).Ok cfg) (hothers : ∀ k', k' ≠ k → v.slot k' = t.slot k')
    (hunique : ∀ k', k' ≠ k → (t.slot k').id = (v.slot k).id → (v.slot k).id = 0) : v.Ok cfg := by
  obtain ⟨hslots, -, hids⟩ := hok
  refine ⟨fun j => ?_, hperm, fun i j hij he => ?_⟩
  · by_cases hj : j = k
    · exact hj ▸ hk
    · exact hothers j hj ▸ hslots j
  · by_cases hi : i = k
    · subst hi
      exact hunique j hij.symm (by rw [he, hothers j hij.symm])
    · by_cases hj : j = k
      · subst hj
        rw [he]
        exact hunique i hi (by rw [← he, hothers i hi])
      · rw [hothers i hi, hothers j hj] at he
        rw [hothers i hi]
        exact hids i j hij he

theorem readyAt_perm {cfg : Cfg} {h : Header} {k : SlotIx} {t u : DefragTable} (hperm : t.order.Perm [0, 1, 2])
    (hu : DefragTable.ReadyAt cfg h k t u) : u.order.Perm [0, 1, 2] := by
  rw [hu.order]
  exact promote_perm k hperm

theorem storeFragment_keeps_ok {cfg : Cfg} {h : Header} {pay : Bytes} {k : SlotIx} {t u : DefragTable} (hok : t.Ok cfg)
    (hu : DefragTable.ReadyAt cfg h k t u) (hn : 2 ≤ h.fragNum.toNat) (hb : badHeader cfg h = false)
    (hpay : pay.length ≤ 65535) : (storeFragment cfg h pay k u).table.Ok cfg := by
  obtain ⟨hcap, hN⟩ := badHeader_eq_false hb
  have hr := store_ready hu.ready hN hcap hpay
  have hperm := readyAt_perm hok.2.1 hu
  obtain ⟨hlack, ht⟩ | ht := storeFragment_table cfg h pay k u <;> rw [ht]
  · refine table_ok_of_slot (k := k) hok hperm ?_ (fun k' hk' => ?_) fun k' hk' he => ?_
    · simpa using slot_ok_of_ready hr (by omega) hcap hlack
    · rw [slot_setSlot_ne _ _ hk', hu.others k' hk']
    · simpa using hu.unique k' hk' (by simpa using he)
  · refine table_ok_of_slot (k := k) hok (demote_perm k hperm) ?_ (fun k' hk' => ?_) fun k' hk' he => ?_
    · simpa using slot_ok_of_empty (sl := ((u.slot k).store h.fragN.toNat pay).clear cfg.fragCap)
        (by simp) (by simpa [hr.expected, hu.ready.expected] using hcap) (by simp)
    · rw [slot_demote, slot_setSlot_ne _ _ hk', hu.others k' hk']
    · simpa using hu.unique k' hk' (by simpa using he)

theorem reassemble_keeps_ok {cfg : Cfg} {t : DefragTable} (hok : t.Ok cfg) (p : Bytes) :
    (reassemble cfg p t).table.Ok cfg := by
  obtain ⟨htab, -⟩ | ⟨hn, hb, k, u, hu, hr⟩ := reassemble_stores hok p
  · rw [htab]; exact hok
  · rw [hr]
    exact storeFragment_keeps_ok hok hu hn hb (by have := bufRead_length_le p 12 (hdrDecode p).len.toNat; omega)

theorem reset_ok (cfg : Cfg) : (DefragTable.reset cfg.fragCap).Ok cfg := by
  refine ⟨fun k => ?_, by simp, fun k _ _ _ => ?_⟩
  · rw [slot_reset]; exact slot_reset_ok cfg
  · rw [slot_reset]; rfl

/-! ## The machine: every step keeps the configuration and the invariant -/

theorem applyReset_cfg (r : ResetEvent) (s : State) : (applyReset r s).cfg = s.cfg := by cases r <;> rfl

@[simp] theorem applyHost_cfg (ev : HostEvent) (s : State) : (applyHost ev s).cfg = s.cfg := by cases ev <;> rfl

@[simp] theorem applyHost_table (ev : HostEvent) (s : State) : (applyHost ev s).table = s.table := by cases ev <;> rfl

theorem exec_keeps_cfg {i : Instr} {s t : State} (h : exec i s = .next t) : t.cfg = s.cfg := by
  obtain ⟨-, ev, -, ⟨-, -, hcfg, -⟩, -⟩ := exec_observed h
  exact hcfg

theorem exec_keeps_table_ok {i : Instr} {s t : State} (hok : s.table.Ok s.cfg) (h : exec i s = .next t) :
    t.table.Ok s.cfg := by
  obtain ⟨-, ev, -, -, ⟨⟨-, htab⟩, -⟩ | ⟨-, -, -, -, -, -, htab⟩ | ⟨p, -, -, -, -, htab⟩⟩ := exec_observed h <;> rw [htab]
  · exact hok
  · exact hok
  · exact reassemble_keeps_ok hok p

theorem applyReset_keeps_table_ok (r : ResetEvent) {s : State} (hok : s.table.Ok s.cfg) :
    (applyReset r s).table.Ok s.cfg := by
  cases r with
  | rstE => exact hok
  | rstI => exact reset_ok s.cfg
  | powerOn => exact reset_ok s.cfg

/-- Settles O40, by the kinds of step. -/
theorem configurationNeverChanges : Obligations.ConfigurationNeverChanges := by
  intro s t h
  obtain ⟨-, ⟨-, rfl⟩ | ⟨c, rest, i, -, -, -, hx⟩ | ⟨c, rest, -, -, -, rfl⟩ | ⟨r, rest, -, rfl⟩ | ⟨ev, rest, -, rfl⟩⟩ :=
    step_cases h
  · rfl
  · exact exec_keeps_cfg (s := s.setInputs rest) hx
  · simp
  · exact applyReset_cfg r _
  · simp

/-- Settles O48: of the kinds of step only a REASM and an INGRESS reset write the table, and `reassemble_keeps_ok` and
`reset_ok` say that they keep its invariant. -/
theorem stepKeepsTheInvariant : Obligations.StepKeepsTheInvariant := by
  intro s t ⟨hv, hok⟩ h
  have hcfg : t.cfg = s.cfg := configurationNeverChanges s t h
  unfold State.Inv
  rw [hcfg]
  refine ⟨hv, ?_⟩
  obtain ⟨-, ⟨-, rfl⟩ | ⟨c, rest, i, -, -, -, hx⟩ | ⟨c, rest, -, -, -, rfl⟩ | ⟨r, rest, -, rfl⟩ | ⟨ev, rest, -, rfl⟩⟩ :=
    step_cases h
  · exact hok
  · exact exec_keeps_table_ok (s := s.setInputs rest) hok hx
  · rw [record_table]; exact hok
  · exact applyReset_keeps_table_ok r (s := s.setInputs rest) hok
  · rw [applyHost_table]; exact hok

/-- Settles O47: the table after reset meets its invariant whatever the configuration. -/
theorem powerOnMeetsTheInvariant : Obligations.PowerOnMeetsTheInvariant :=
  ⟨fun cfg hv => ⟨hv, reset_ok cfg⟩, by decide, reset_ok Config.reference⟩

/-! ## ORDER and the bound on a datagram -/

theorem storeFragment_order {cfg : Cfg} {h : Header} {pay : Bytes} {k : SlotIx} {t u : DefragTable}
    (hu : DefragTable.ReadyAt cfg h k t u) :
    (storeFragment cfg h pay k u).table.order = k :: t.order.filter (fun j => j ≠ k)
    ∨ (storeFragment cfg h pay k u).table.order = t.order.filter (fun j => j ≠ k) ++ [k] := by
  obtain ⟨-, ht⟩ | ht := storeFragment_table cfg h pay k u <;> rw [ht]
  · exact .inl hu.order
  · exact .inr (by simp [hu.order])

/-- A REASM moves at most one slot, to the head or to the tail. -/
theorem reassemble_order {cfg : Cfg} {t : DefragTable} (hok : t.Ok cfg) (p : Bytes) :
    (reassemble cfg p t).table.order = t.order
    ∨ ∃ k before after, t.order = before ++ k :: after
        ∧ ((reassemble cfg p t).table.order = k :: (before ++ after)
          ∨ (reassemble cfg p t).table.order = before ++ after ++ [k]) := by
  obtain ⟨htab, -⟩ | ⟨-, -, k, u, hu, hr⟩ := reassemble_stores hok p
  · exact .inl (by rw [htab])
  · obtain ⟨before, after, hsplit⟩ := List.append_of_mem (mem_order hok.2.1 k)
    have hnodup : (before ++ k :: after).Nodup := hsplit ▸ hok.2.1.nodup_iff.2 (by decide)
    refine .inr ⟨k, before, after, hsplit, ?_⟩
    rw [hr, ← filter_ne_of_nodup hnodup, ← hsplit]
    exact storeFragment_order hu

/-- Settles O32: ORDER stays a permutation by the invariant, and only a REASM can move a slot. -/
theorem orderChangesOnlyByOneMove : Obligations.OrderChangesOnlyByOneMove := by
  intro i s t ⟨_, hok⟩ h
  refine ⟨(exec_keeps_table_ok hok h).2.1, ?_⟩
  obtain ⟨-, ev, -, -, ⟨⟨-, htab⟩, -⟩ | ⟨-, -, -, -, -, -, htab⟩ | ⟨p, hi, -, -, -, htab⟩⟩ := exec_observed h <;> rw [htab]
  · exact .inl rfl
  · exact .inl rfl
  · obtain hsame | ⟨k, before, after, hsplit, hmove⟩ := reassemble_order hok p
    · exact .inl hsame
    · exact .inr ⟨p, k, before, after, hi, hsplit, hmove⟩

theorem reassemble_datagram_length_le {cfg : Cfg} {t : DefragTable} (hok : t.Ok cfg) {p d : Bytes}
    (hst : (reassemble cfg p t).status = .emitReasm) (hout : (reassemble cfg p t).output = .datagram d) :
    d.length ≤ cfg.fragCap * 65535 := by
  obtain ⟨-, hne⟩ | ⟨-, hb, k, u, hu, hr⟩ := reassemble_stores hok p
  · exact absurd hst hne
  · obtain ⟨hcap, hN⟩ := badHeader_eq_false hb
    have hready := store_ready hu.ready hN hcap
      (Nat.le_of_lt_succ (Nat.lt_of_le_of_lt (bufRead_length_le p 12 _) (hdrDecode p).len.isLt))
    rw [hr] at hst hout
    cases ha : ((u.slot k).store (hdrDecode p).fragN.toNat (bufRead p 12 (hdrDecode p).len.toNat)).allPresent
        (hdrDecode p).fragNum.toNat with
    | false => simp [storeFragment_pending ha] at hst
    | true =>
      rw [storeFragment_complete ha] at hout
      cases hout
      exact (gather_length_le hready.bounded _).trans (Nat.mul_le_mul_right _ hcap)

/-- Settles O33: the fragments of a slot ready for the packet are at most 65535 bytes each, and there are at most `FRAG_CAP`. -/
theorem reassembledLengthIsBounded : Obligations.ReassembledLengthIsBounded := by
  intro p d s t c ⟨hv, hok⟩ h hobs
  rw [exec_reasm hv] at h
  cases h
  have hev := observed_unique hobs (observed_record_setTable _ _ _)
  simp only [Event.mk.injEq] at hev
  obtain ⟨-, hst, hout⟩ := hev
  exact reassemble_datagram_length_le hok hst.symm hout.symm

end Sys2Proof.Machine
end

section
/-! PROOFS. The refusal of a configuration (spec 10_state R28), and what each command and each engine reads and writes (R16, R30,
R43). -/

namespace Sys2Proof.Machine

/-! ## The configuration check -/

theorem exec_of_invalid {s : State} (h : s.cfg.valid = false) (i : Instr) : exec i s = .refused .invalidConfig := by
  cases i <;> exact whenValid_of_invalid h _

/-- Under a legal configuration no move is refused for the configuration: a decoded command answers a next state, and the other
refusals have other names. -/
theorem step_ne_invalidConfig {s : State} (hv : s.cfg.valid = true) : step s ≠ .refused .invalidConfig := by
  rw [step, whenValid_of_valid hv]
  split
  · exact nofun
  · next c rest _ =>
    split
    · exact nofun
    · unfold present
      split
      · next i _ =>
        obtain ⟨t, ht⟩ := exists_exec_eq_next (s := s.setInputs rest) hv i
        rw [ht]
        exact nofun
      · rw [execIllegal, whenValid_of_valid (s := s.setInputs rest) hv]
        exact nofun
      · exact nofun
  · exact nofun
  · exact nofun

theorem step_eq_invalidConfig_iff (s : State) : step s = .refused .invalidConfig ↔ s.cfg.valid = false := by
  refine ⟨fun h => ?_, fun h => whenValid_of_invalid h _⟩
  rw [← Bool.not_eq_true]
  exact fun hv => step_ne_invalidConfig hv h

/-- Settles O7: the configuration is refused exactly when `Cfg.valid` fails, which is one of the ranges of R28 missed. -/
theorem invalidConfigurationIsRefused : Obligations.InvalidConfigurationIsRefused := by
  intro s
  rw [step_eq_invalidConfig_iff]
  refine ⟨?_, exec_of_invalid⟩
  rw [← Bool.not_eq_true, valid_iff]
  omega

/-! ## Who writes `ID` -/

theorem fragFault_ne_ok (cfg : Cfg) (n : Nat) : fragFault cfg n ≠ some .ok := by
  unfold fragFault
  split_ifs <;> decide

/-- Settles O20: the three kinds of effect a command can have, by `exec_observed`. -/
theorem onlySuccessfulFragAdvancesId : Obligations.OnlySuccessfulFragAdvancesId := by
  intro i s t ev h hobs
  obtain ⟨-, ev', -, hobs', hcases⟩ := exec_observed h
  obtain rfl := observed_unique hobs hobs'
  obtain ⟨⟨hid, -⟩, hfault, -⟩ | ⟨d, hi, -, hst, -, hid, -⟩ | ⟨p, rfl, -, -, hid, -⟩ := hcases
  · refine ⟨fun ⟨d, hi, hst⟩ => ?_, fun _ => hid⟩
    exact absurd (hst ▸ hfault d hi) (fragFault_ne_ok _ _)
  · exact ⟨fun _ => hid, fun hno => absurd ⟨d, hi, hst⟩ hno⟩
  · exact ⟨nofun, fun _ => hid⟩

/-! ## What a command reads and writes -/

/-- A FRAG on EGRESS that passes its checks. -/
theorem exec_frag_ok {d : Bytes} {s : State} (hv : s.cfg.valid = true) (hf : fragFault s.cfg d.length = none) :
    exec (.frag .egress d) s = .next ((s.setId (s.id + 1)).record
      ⟨encode (.frag .egress d), .ok, .packets (fragCount s.cfg d.length) (fragPackets s.cfg s.id d)⟩) := by
  simp [exec, execFrag, whenValid_of_valid hv, hf, finish]

/-- A FRAG on EGRESS that fails them. -/
theorem exec_frag_fault {d : Bytes} {s : State} {st : Status} (hv : s.cfg.valid = true)
    (hf : fragFault s.cfg d.length = some st) :
    exec (.frag .egress d) s = .next (s.record ⟨encode (.frag .egress d), st, .nothing⟩) := by
  simp [exec, execFrag, whenValid_of_valid hv, hf, raise, finish]

/-- A FRAG on INGRESS (R57). -/
theorem exec_frag_ingress {d : Bytes} {s : State} (hv : s.cfg.valid = true) :
    exec (.frag .ingress d) s = .next (s.record ⟨encode (.frag .ingress d), .errIllegalOp, .nothing⟩) :=
  whenValid_of_valid hv _

/-- A FRAG on EGRESS reads the configuration and `ID`, and writes `ID`. -/
theorem exec_frag_local {cfg : Cfg} (hv : cfg.valid = true) (id : BitVec 64) (d : Bytes) :
    ∃ v st out, ∀ s : State, s.cfg = cfg → s.id = id →
      exec (.frag .egress d) s = .next ((s.setId v).record ⟨encode (.frag .egress d), st, out⟩) := by
  cases hf : fragFault cfg d.length with
  | some st => exact ⟨id, st, .nothing, by rintro s rfl rfl; exact exec_frag_fault hv hf⟩
  | none =>
    exact ⟨id + 1, .ok, .packets (fragCount cfg d.length) (fragPackets cfg id d),
      by rintro s rfl rfl; exact exec_frag_ok hv hf⟩

/-- A REASM on INGRESS reads the configuration and the table, and writes the table. -/
theorem exec_reasm_local {cfg : Cfg} (hv : cfg.valid = true) (tab : DefragTable) (p : Bytes) :
    ∃ u st out, ∀ s : State, s.cfg = cfg → s.table = tab →
      exec (.reasm .ingress p) s = .next ((s.setTable u).record ⟨encode (.reasm .ingress p), st, out⟩) :=
  ⟨(reassemble cfg p tab).table, (reassemble cfg p tab).status, (reassemble cfg p tab).output,
    by rintro s rfl rfl; exact exec_reasm hv⟩

/-- Every other command reads the configuration only and writes nothing. -/
theorem exec_other_local {cfg : Cfg} (hv : cfg.valid = true) {i : Instr} (hfrag : ∀ d, i ≠ .frag .egress d)
    (hreasm : ∀ p, i ≠ .reasm .ingress p) :
    ∃ st out, ∀ s : State, s.cfg = cfg → exec i s = .next (s.record ⟨encode i, st, out⟩) := by
  cases i with
  | henc e id fragn fragnum len => exact ⟨_, _, by rintro s rfl; exact whenValid_of_valid hv _⟩
  | hdec e buf =>
    cases hf : hdecFault buf with
    | some st =>
      exact ⟨st, .nothing, by rintro s rfl; simp [exec, execHdec, whenValid_of_valid hv, hf, raise, finish]⟩
    | none =>
      exact ⟨.ok, .fields (hdrDecode buf), by rintro s rfl; simp [exec, execHdec, whenValid_of_valid hv, hf, finish]⟩
  | align e n => exact ⟨_, .natural (alignUp n cfg.block), by rintro s rfl; exact whenValid_of_valid hv _⟩
  | frag e d =>
    cases e with
    | egress => exact absurd rfl (hfrag d)
    | ingress => exact ⟨_, _, by rintro s rfl; exact exec_frag_ingress hv⟩
  | reasm e p =>
    cases e with
    | egress => exact ⟨.errIllegalOp, .nothing, by rintro s rfl; exact whenValid_of_valid hv _⟩
    | ingress => exact absurd rfl (hreasm p)

/-- Settles O49: each of the three kinds of command answers alike at two states that agree on what it reads. -/
theorem commandsReadAndWriteOnlyTheirOwnState : Obligations.CommandsReadAndWriteOnlyTheirOwnState := by
  intro i s s' t ev hcfg hid htab h hobs
  obtain ⟨hv, -⟩ := exec_cases h
  by_cases hfrag : ∃ d, i = .frag .egress d
  · obtain ⟨d, rfl⟩ := hfrag
    obtain ⟨v, st, out, hx⟩ := exec_frag_local hv s.id d
    rw [hx s rfl rfl] at h
    cases h
    obtain rfl := observed_unique hobs (observed_record_setId _ _ _)
    exact ⟨_, hx s' hcfg.symm (hid d rfl).symm, observed_record_setId _ _ _, by simp⟩
  · by_cases hreasm : ∃ p, i = .reasm .ingress p
    · obtain ⟨p, rfl⟩ := hreasm
      obtain ⟨u, st, out, hx⟩ := exec_reasm_local hv s.table p
      rw [hx s rfl rfl] at h
      cases h
      obtain rfl := observed_unique hobs (observed_record_setTable _ _ _)
      exact ⟨_, hx s' hcfg.symm (htab p rfl).symm, observed_record_setTable _ _ _, by simp⟩
    · push Not at hfrag hreasm
      obtain ⟨st, out, hx⟩ := exec_other_local hv hfrag hreasm
      rw [hx s rfl] at h
      cases h
      obtain rfl := observed_unique hobs (observed_record _ _)
      exact ⟨_, hx s' hcfg.symm, observed_record _ _, fun d hd => absurd hd (hfrag d), by simp,
        fun p hp => absurd hp (hreasm p), by simp⟩

/-! ## The two engines -/

/-- What a command on an engine writes: `ID` on EGRESS, the table on INGRESS (the other field is ignored), and an event. -/
structure OwnWrite where
  id    : BitVec 64
  table : DefragTable
  event : Event

/-- The write carried out. -/
def State.writeOwn (s : State) (e : Engine) (w : OwnWrite) : State :=
  match e with
  | .egress => { s with id := w.id, traceE := s.traceE ++ [w.event] }
  | .ingress => { s with table := w.table, traceI := s.traceI ++ [w.event] }

/-- `s'` agrees with `s` on everything a command on engine `e` depends on: the configuration, the engine's own state (R30) and
whether its run is ended. -/
structure SameOwn (e : Engine) (s s' : State) : Prop where
  cfg : s'.cfg = s.cfg
  ended : s'.hasEnded e = s.hasEnded e
  id : e = .egress → s'.id = s.id
  table : e = .ingress → s'.table = s.table

theorem sameOwn_refl (e : Engine) (s : State) : SameOwn e s s := ⟨rfl, rfl, fun _ => rfl, fun _ => rfl⟩

theorem sameOwn_setInputs {e : Engine} {s s' : State} (h : SameOwn e s s') (l : List Input) : SameOwn e s (s'.setInputs l) :=
  ⟨h.cfg, by simpa using h.ended, h.id, h.table⟩

theorem sameOwn_writeOwn_other {e e' : Engine} (hne : e ≠ e') (s : State) (w : OwnWrite) :
    SameOwn e' s (s.writeOwn e w) := by
  cases e <;> cases e'
  · exact absurd rfl hne
  · exact ⟨rfl, rfl, nofun, fun _ => rfl⟩
  · exact ⟨rfl, rfl, fun _ => rfl, nofun⟩
  · exact absurd rfl hne

theorem setInputs_writeOwn (s : State) (e : Engine) (w : OwnWrite) (l : List Input) :
    (s.setInputs l).writeOwn e w = (s.writeOwn e w).setInputs l := by cases e <;> rfl

theorem writeOwn_comm {e e' : Engine} (hne : e ≠ e') (s : State) (w w' : OwnWrite) :
    (s.writeOwn e w).writeOwn e' w' = (s.writeOwn e' w').writeOwn e w := by
  cases e <;> cases e'
  · exact absurd rfl hne
  · rfl
  · rfl
  · exact absurd rfl hne

/-- Recording an event alone is a write that leaves the engine's state as it was. -/
theorem record_eq_writeOwn {e : Engine} {s s' : State} (h : SameOwn e s s') {ev : Event} (he : ev.command.engine = e) :
    s'.record ev = s'.writeOwn e ⟨s.id, s.table, ev⟩ := by
  cases e with
  | egress => rw [← h.id rfl]; simp [State.record, State.writeOwn, he]
  | ingress => rw [← h.table rfl]; simp [State.record, State.writeOwn, he]

/-- A command's effect is a write to its own engine, which depends on that engine's state alone. -/
theorem exec_writes_own {s : State} (hv : s.cfg.valid = true) (i : Instr) :
    ∃ w, ∀ s', SameOwn i.engine s s' → exec i s' = .next (s'.writeOwn i.engine w) := by
  by_cases hfrag : ∃ d, i = .frag .egress d
  · obtain ⟨d, rfl⟩ := hfrag
    obtain ⟨v, st, out, hx⟩ := exec_frag_local hv s.id d
    exact ⟨⟨v, s.table, _⟩, fun s' h => hx s' h.cfg (h.id rfl)⟩
  · by_cases hreasm : ∃ p, i = .reasm .ingress p
    · obtain ⟨p, rfl⟩ := hreasm
      obtain ⟨u, st, out, hx⟩ := exec_reasm_local hv s.table p
      exact ⟨⟨s.id, u, _⟩, fun s' h => hx s' h.cfg (h.table rfl)⟩
    · push Not at hfrag hreasm
      obtain ⟨st, out, hx⟩ := exec_other_local hv hfrag hreasm
      exact ⟨⟨s.id, s.table, _⟩, fun s' h => by rw [hx s' h.cfg, record_eq_writeOwn h (by cases i <;> rfl)]⟩

theorem engine_of_decode_ok {c : Command} {i : Instr} (h : decode c = .ok i) : i.engine = c.engine := by
  unfold decode at h
  split at h
  · cases h
  · next op _ =>
    split at h
    · cases h
    · next i' hi =>
      cases h
      unfold instrOf at hi
      split at hi <;> cases hi <;> rfl

/-- The step that carries out `c` writes to its engine what `o` says, or answers no next state; from `s` and from every state
that agrees with it on the engine. -/
def Writes (c : Command) (s : State) (o : Option OwnWrite) : Prop :=
  ∀ s', SameOwn c.engine s s' → ∀ rest t,
    step (s'.setInputs (.command c :: rest)) = .next t ↔ ∃ w ∈ o, t = (s'.setInputs rest).writeOwn c.engine w

theorem exists_writes (c : Command) (s : State) : ∃ o, Writes c s o := by
  by_cases hv : s.cfg.valid = true
  · have hstep : ∀ s', SameOwn c.engine s s' → ∀ rest, step (s'.setInputs (.command c :: rest)) =
        if s.hasEnded c.engine then .refused (.runEnded c.engine) else present c (s'.setInputs rest) := fun s' h rest => by
      rw [step_command (by simpa [h.cfg] using hv) (setInputs_inputs _ _), setInputs_hasEnded, h.ended]; rfl
    cases he : s.hasEnded c.engine with
    | true => exact ⟨none, fun s' h rest t => by simp [hstep s' h, he]⟩
    | false =>
      cases hd : decode c with
      | ok i =>
        obtain ⟨w, hw⟩ := exec_writes_own hv i
        rw [engine_of_decode_ok hd] at hw
        refine ⟨some w, fun s' h rest t => ?_⟩
        simp [hstep s' h, he, present_of_decode_ok hd, hw _ (sameOwn_setInputs h rest), eq_comm]
      | error err =>
        cases err with
        | illegalOp =>
          refine ⟨some ⟨s.id, s.table, ⟨c, .errIllegalOp, .nothing⟩⟩, fun s' h rest t => ?_⟩
          have hv' : (s'.setInputs rest).cfg.valid = true := by simpa [h.cfg] using hv
          simp [hstep s' h, he, present, hd, execIllegal, raise, whenValid_of_valid hv', finish,
            record_eq_writeOwn (sameOwn_setInputs h rest), eq_comm]
        | operandMismatch => exact ⟨none, fun s' h rest t => by simp [hstep s' h, he, present, hd]⟩
  · refine ⟨none, fun s' h rest t => ?_⟩
    simp [step, whenValid, h.cfg, hv]

theorem run_two (s t : State) : core.run 2 s = .next t ↔ ∃ m, step s = .next m ∧ step m = .next t := by
  simp only [Host.Core.run, core]
  cases step s with
  | next m => cases hm : step m <;> simp [hm]
  | fault r => simp
  | refused r => simp

/-- Two commands on different engines: each makes the write it makes alone. -/
theorem run_two_commands {c d : Command} {s : State} {o o' : Option OwnWrite} (hne : c.engine ≠ d.engine)
    (hc : Writes c s o) (hd : Writes d s o') (rest : List Input) (t : State) :
    core.run 2 (s.setInputs (.command c :: .command d :: rest)) = .next t ↔
      ∃ w ∈ o, ∃ w' ∈ o', t = ((s.setInputs rest).writeOwn c.engine w).writeOwn d.engine w' := by
  have hsecond : ∀ w, step ((s.setInputs (.command d :: rest)).writeOwn c.engine w) = .next t ↔
      ∃ w' ∈ o', t = ((s.setInputs rest).writeOwn c.engine w).writeOwn d.engine w' := fun w => by
    rw [setInputs_writeOwn, hd _ (sameOwn_writeOwn_other hne s w), setInputs_writeOwn s]
  rw [run_two]
  constructor
  · rintro ⟨m, hm, ht⟩
    obtain ⟨w, hw, rfl⟩ := (hc s (sameOwn_refl _ s) _ m).1 hm
    exact ⟨w, hw, (hsecond w).1 ht⟩
  · rintro ⟨w, hw, ht⟩
    exact ⟨_, (hc s (sameOwn_refl _ s) _ _).2 ⟨w, hw, rfl⟩, (hsecond w).2 ht⟩

/-- Settles O50: in either order each command makes the write it makes alone, and writes to different engines commute. -/
theorem enginesCommute : Obligations.EnginesCommute := by
  intro s t c d rest hc hd
  have hne : c.engine ≠ d.engine := by simp [hc, hd]
  obtain ⟨o, ho⟩ := exists_writes c s
  obtain ⟨o', ho'⟩ := exists_writes d s
  rw [run_two_commands hne ho ho', run_two_commands hne.symm ho' ho]
  simp only [writeOwn_comm hne]
  constructor
  · rintro ⟨w, hw, w', hw', ht⟩
    exact ⟨w', hw', w, hw, ht⟩
  · rintro ⟨w', hw', w, hw, ht⟩
    exact ⟨w, hw, w', hw', ht⟩

end Sys2Proof.Machine
end

section
/-! PROOFS. The obligations on a configuration (spec 10_state R29) and the loopback (30_encoding R58): what FRAG emits, REASM of
the same configuration collects in any order and gives back. -/

namespace Sys2Proof.Machine

/-! ## The count of fragments -/

theorem ceilDiv_mono {a b : Nat} (h : a ≤ b) (m : Nat) : ceilDiv a m ≤ ceilDiv b m := Nat.div_le_div_right (by omega)

theorem fragFault_eq_none {cfg : Cfg} {n : Nat} (h1 : 1 ≤ n) (hn : n ≤ cfg.maxDgram) (hfit : cfg.fitsCount) :
    fragFault cfg n = none := by
  have hcount := (ceilDiv_mono hn cfg.maxPay).trans hfit
  unfold fragFault
  rw [if_neg (by omega), if_neg (by omega), if_neg (by omega)]

theorem fragFault_ne_frTooMany {cfg : Cfg} (hfit : cfg.fitsCount) (n : Nat) : fragFault cfg n ≠ some .frTooMany := by
  by_cases h0 : n = 0
  · simp [fragFault, h0]
  · by_cases hn : n ≤ cfg.maxDgram
    · simp [fragFault_eq_none (by omega) hn hfit]
    · simp [fragFault, h0, Nat.lt_of_not_le hn]

/-- Settles O45: on INGRESS the status is another, on EGRESS `ceil_div` is monotone. -/
theorem fittingCountNeverTooMany : Obligations.FittingCountNeverTooMany := by
  intro e d s t ev hfit h hobs
  obtain ⟨hv, -⟩ := exec_cases h
  cases e with
  | ingress =>
    rw [exec_frag_ingress hv] at h
    cases h
    simp [observed_unique hobs (observed_record _ _)]
  | egress =>
    cases hf : fragFault s.cfg d.length with
    | none =>
      rw [exec_frag_ok hv hf] at h
      cases h
      simp [observed_unique hobs (observed_record_setId _ _ _)]
    | some st =>
      rw [exec_frag_fault hv hf] at h
      cases h
      rw [observed_unique hobs (observed_record _ _)]
      rintro rfl
      exact fragFault_ne_frTooMany hfit _ hf

/-! ## The packets of a datagram -/

/-- A field written little-endian inside a sequence, in as many bytes as its width needs, reads back. -/
theorem readLE_bytesLE {w k : Nat} (hw : 256 ^ k = 2 ^ w) (before after : Bytes) (x : BitVec w) :
    BitVec.ofNat w (readLE (before ++ bytesLE x.toNat k ++ after) before.length k) = x := by
  rw [readLE, List.append_assoc, bufRead_append_right _ _ _ _ (Nat.le_refl _), Nat.sub_self,
    bufRead_append_left _ _ _ (by simp), List.take_of_length_le (by simp), leNat_bytesLE, hw, Nat.mod_eq_of_lt x.isLt,
    BitVec.ofNat_toNat, BitVec.setWidth_eq]

/-- Each field stands at its offset (R47, R48). -/
theorem hdrDecode_hdrEncode (h : Header) : hdrDecode (hdrEncode h) = h := by
  have hid := readLE_bytesLE (k := 8) (by norm_num) []
    (bytesLE h.fragN.toNat 1 ++ bytesLE h.fragNum.toNat 1 ++ bytesLE h.len.toNat 2) h.id
  have hfragN := readLE_bytesLE (k := 1) (by norm_num) (bytesLE h.id.toNat 8)
    (bytesLE h.fragNum.toNat 1 ++ bytesLE h.len.toNat 2) h.fragN
  have hfragNum := readLE_bytesLE (k := 1) (by norm_num) (bytesLE h.id.toNat 8 ++ bytesLE h.fragN.toNat 1)
    (bytesLE h.len.toNat 2) h.fragNum
  have hlen := readLE_bytesLE (k := 2) (by norm_num)
    (bytesLE h.id.toNat 8 ++ bytesLE h.fragN.toNat 1 ++ bytesLE h.fragNum.toNat 1) [] h.len
  simp only [List.append_assoc, List.nil_append, List.append_nil, List.length_append, List.length_nil, bytesLE_length,
    Nat.reduceAdd] at hid hfragN hfragNum hlen
  simp only [hdrDecode, hdrEncode, List.append_assoc, hid, hfragN, hfragNum, hlen]

theorem hdrDecode_packet (B : Nat) (id : BitVec 64) (fn fnum : BitVec 8) (pay : Bytes) :
    hdrDecode (packet B id fn fnum pay) = ⟨id, fn, fnum, BitVec.ofNat 16 pay.length⟩ := by
  rw [packet, List.append_assoc, hdrDecode_append _ _ (hdrEncode_length _), hdrDecode_hdrEncode]

section Lengths
variable {cfg : Cfg} {n : Nat} (hm : 1 ≤ cfg.maxPay) (hn : 1 ≤ n)
include hm hn

theorem one_le_fragCount : 1 ≤ fragCount cfg n := (lt_ceilDiv_iff hm).2 (by omega)

theorem one_le_fragSize : 1 ≤ fragSize cfg n := (lt_ceilDiv_iff (one_le_fragCount hm hn)).2 (by omega)

theorem fragSize_le_maxPay : fragSize cfg n ≤ cfg.maxPay := by
  rw [fragSize, ceilDiv_le_iff (one_le_fragCount hm hn), Nat.mul_comm]
  exact (ceilDiv_le_iff hm).1 (Nat.le_refl _)

theorem le_fragCount_mul_fragSize : n ≤ fragCount cfg n * fragSize cfg n := by
  rw [Nat.mul_comm]
  exact (ceilDiv_le_iff (one_le_fragCount hm hn)).1 (Nat.le_refl _)

/-- Every fragment starts inside the datagram, so none is empty (R75). -/
theorem mul_fragSize_lt {k : Nat} (hk : k < fragCount cfg n) : k * fragSize cfg n < n :=
  (Nat.mul_le_mul_left k (fragSize_le_maxPay hm hn)).trans_lt ((lt_ceilDiv_iff hm).1 hk)

end Lengths

theorem fragPayload_eq_take (cfg : Cfg) (d : Bytes) (k : Nat) :
    fragPayload cfg d k = (d.drop (k * fragSize cfg d.length)).take (fragSize cfg d.length) := by
  rw [fragPayload, bufRead, ← List.length_drop, ← List.take_eq_take_min]

theorem fragPayload_length (cfg : Cfg) (d : Bytes) (k : Nat) :
    (fragPayload cfg d k).length = min (fragSize cfg d.length) (d.length - k * fragSize cfg d.length) := by
  simp [fragPayload_eq_take]

theorem fragPayload_length_le {cfg : Cfg} {d : Bytes} (hm : 1 ≤ cfg.maxPay) (hn : 1 ≤ d.length) (k : Nat) :
    (fragPayload cfg d k).length ≤ cfg.maxPay := by
  rw [fragPayload_length]
  exact (Nat.min_le_left _ _).trans (fragSize_le_maxPay hm hn)

theorem one_le_fragPayload_length {cfg : Cfg} {d : Bytes} (hm : 1 ≤ cfg.maxPay) (hn : 1 ≤ d.length) {k : Nat}
    (hk : k < fragCount cfg d.length) : 1 ≤ (fragPayload cfg d k).length := by
  have := one_le_fragSize hm hn
  have := mul_fragSize_lt hm hn hk
  rw [fragPayload_length]
  omega

/-- The payloads in order are the datagram (R76). -/
theorem flatten_fragPayload {cfg : Cfg} {d : Bytes} (hm : 1 ≤ cfg.maxPay) (hn : 1 ≤ d.length) :
    ((List.range (fragCount cfg d.length)).map (fragPayload cfg d)).flatten = d := by
  have htake : ∀ m, ((List.range m).map (fragPayload cfg d)).flatten = d.take (m * fragSize cfg d.length) := by
    intro m
    induction m with
    | zero => simp
    | succ m ih => simp [List.range_succ, ih, fragPayload_eq_take, Nat.succ_mul, List.take_add]
  rw [htake, List.take_of_length_le (le_fragCount_mul_fragSize hm hn)]

theorem hdrDecode_fragPacket (cfg : Cfg) (id : BitVec 64) (d : Bytes) (k : Nat) :
    hdrDecode (fragPacket cfg id d k) =
      ⟨id, BitVec.ofNat 8 k, BitVec.ofNat 8 (fragCount cfg d.length), BitVec.ofNat 16 (fragPayload cfg d k).length⟩ :=
  hdrDecode_packet _ _ _ _ _

theorem fragPacket_len {cfg : Cfg} (hv : cfg.valid = true) (id : BitVec 64) {d : Bytes} (hn : 1 ≤ d.length) (k : Nat) :
    (hdrDecode (fragPacket cfg id d k)).len.toNat = (fragPayload cfg d k).length := by
  obtain ⟨-, hm, hmax, -⟩ := (valid_iff cfg).1 hv
  have := fragPayload_length_le hm hn k
  rw [hdrDecode_fragPacket, BitVec.toNat_ofNat]
  omega

theorem bufRead_fragPacket {cfg : Cfg} (hv : cfg.valid = true) (id : BitVec 64) {d : Bytes} (hn : 1 ≤ d.length) (k : Nat) :
    bufRead (fragPacket cfg id d k) 12 (hdrDecode (fragPacket cfg id d k)).len.toNat = fragPayload cfg d k := by
  rw [fragPacket_len hv id hn]
  exact bufRead_packet _ _ _ _ _

/-- A packet carries at least one byte of payload, so its length is at least that of a block-aligned 13 bytes. -/
theorem lengthViolation_fragPacket {cfg receiver : Cfg} (hv : cfg.valid = true) (hblock : receiver.block = cfg.block)
    (hfloor : receiver.fitsFloor) (id : BitVec 64) {d : Bytes} (hn : 1 ≤ d.length) {k : Nat}
    (hk : k < fragCount cfg d.length) : lengthViolation receiver (fragPacket cfg id d k) = none := by
  obtain ⟨hB, hm, -⟩ := (valid_iff cfg).1 hv
  have hlen : (fragPacket cfg id d k).length = alignUp (12 + (fragPayload cfg d k).length) cfg.block :=
    packet_length _ _ _ _ _ hB
  have hmono : alignUp 13 cfg.block ≤ alignUp (12 + (fragPayload cfg d k).length) cfg.block :=
    Nat.mul_le_mul_right _ (ceilDiv_mono (by have := one_le_fragPayload_length hm hn hk; omega) _)
  have h13 := le_alignUp 13 hB
  rw [Cfg.fitsFloor, hblock] at hfloor
  rw [lengthViolation_eq_none, fragPacket_len hv id hn, hblock, hlen]
  exact ⟨by omega, rfl⟩

/-- What a FRAG shows when it ends with `OK`. -/
theorem exec_frag_packets {d : Bytes} {s t : State} {c : Command} {count : Nat} {ps : List Bytes}
    (h : exec (.frag .egress d) s = .next t) (ht : t.traceE = s.traceE ++ [⟨c, .ok, .packets count ps⟩]) :
    s.cfg.valid = true ∧ fragFault s.cfg d.length = none ∧ count = fragCount s.cfg d.length
      ∧ ps = fragPackets s.cfg s.id d := by
  obtain ⟨hv, -⟩ := exec_cases h
  cases hf : fragFault s.cfg d.length with
  | some st =>
    rw [exec_frag_fault hv hf] at h
    cases h
    cases List.append_cancel_left (as := s.traceE) ht
  | none =>
    rw [exec_frag_ok hv hf] at h
    cases h
    cases List.append_cancel_left (as := s.traceE) ht
    exact ⟨hv, rfl, rfl, rfl⟩

theorem one_le_length_of_fragFault {cfg : Cfg} {n : Nat} (h : fragFault cfg n = none) : 1 ≤ n := by
  by_contra h0
  simp [fragFault, show n = 0 by omega] at h

/-- Settles O46: every packet emitted is a `fragPacket`, and those pass the receiver's length checks. -/
theorem emittedPacketsPassTheFloor : Obligations.EmittedPacketsPassTheFloor := by
  intro d s t c count ps receiver h ht hblock hfloor p hp
  obtain ⟨hv, hf, -, rfl⟩ := exec_frag_packets h ht
  obtain ⟨k, hk, rfl⟩ := List.mem_map.1 hp
  exact lengthViolation_fragPacket hv hblock hfloor s.id (one_le_length_of_fragFault hf) (List.mem_range.1 hk)

end Sys2Proof.Machine
end

section
/-! PROOFS. The loopback (spec 30_encoding R58, 42_fragmenter R76, 43_reassembler R89-R91): what FRAG emits, REASM collects in
any order and gives back. -/

namespace Sys2Proof.Machine

/-! ## Collecting the packets of one datagram -/

/-- The datagram takes the slow path under a configuration that can hold its fragments and whose floor passes them. -/
structure SlowDatagram (cfg : Cfg) (d : Bytes) : Prop where
  valid : cfg.valid = true
  floor : cfg.fitsFloor
  nonempty : 1 ≤ d.length
  many : 2 ≤ fragCount cfg d.length
  fits : fragCount cfg d.length ≤ cfg.fragCap

/-- Slot `k` alone is held by sequence number `id`, under the datagram's count, and has the fragments `got` of it. -/
structure Collecting (cfg : Cfg) (id : BitVec 64) (d : Bytes) (got : List Nat) (k : SlotIx) (t : DefragTable) : Prop where
  mem : k ∈ t.order
  holds : (t.slot k).id = id
  alone : ∀ k', k' ≠ k → (t.slot k').id ≠ id
  expected : (t.slot k).expected = BitVec.ofNat 8 (fragCount cfg d.length)
  length : (t.slot k).frag.length = cfg.fragCap
  fragAt : ∀ j, (t.slot k).fragAt j = if j ∈ got then some (fragPayload cfg d j) else none

/-- The table has the fragments `got` of the datagram: either none yet and no slot of its sequence number, or a slot that
collects them. -/
inductive Awaiting (cfg : Cfg) (id : BitVec 64) (d : Bytes) : List Nat → DefragTable → Prop
  | first {t : DefragTable} (h : ∀ k, (t.slot k).id ≠ id) : Awaiting cfg id d [] t
  | next {got : List Nat} {k : SlotIx} {t : DefragTable} (h : Collecting cfg id d got k t) : Awaiting cfg id d got t

section Slow
variable {cfg : Cfg} {d : Bytes} (hs : SlowDatagram cfg d)
include hs

theorem fragCount_lt : fragCount cfg d.length < 256 := by
  obtain ⟨-, -, -, -, hcap, -⟩ := (valid_iff cfg).1 hs.valid
  have := hs.fits
  omega

theorem fragNum_fragPacket (id : BitVec 64) (j : Nat) :
    (hdrDecode (fragPacket cfg id d j)).fragNum.toNat = fragCount cfg d.length := by
  rw [hdrDecode_fragPacket]
  exact Nat.mod_eq_of_lt (fragCount_lt hs)

theorem fragN_fragPacket (id : BitVec 64) {j : Nat} (hj : j < fragCount cfg d.length) :
    (hdrDecode (fragPacket cfg id d j)).fragN.toNat = j := by
  rw [hdrDecode_fragPacket]
  exact Nat.mod_eq_of_lt (hj.trans (fragCount_lt hs))

theorem badHeader_fragPacket (id : BitVec 64) {j : Nat} (hj : j < fragCount cfg d.length) :
    badHeader cfg (hdrDecode (fragPacket cfg id d j)) = false := by
  have := hs.fits
  simp [badHeader, fragNum_fragPacket hs, fragN_fragPacket hs id hj, hj, this]

/-- A packet of the datagram finds its slot or makes it, and is stored there. -/
theorem reassemble_awaiting {id : BitVec 64} {got : List Nat} {t : DefragTable} (ht : Awaiting cfg id d got t) {j : Nat}
    (hj : j < fragCount cfg d.length) :
    ∃ k u, Collecting cfg id d got k u ∧ reassemble cfg (fragPacket cfg id d j) t =
      storeFragment cfg (hdrDecode (fragPacket cfg id d j)) (fragPayload cfg d j) k u := by
  have hl := lengthViolation_fragPacket hs.valid rfl hs.floor id hs.nonempty hj
  have hn : 2 ≤ (hdrDecode (fragPacket cfg id d j)).fragNum.toNat := fragNum_fragPacket hs id j ▸ hs.many
  have hb := badHeader_fragPacket hs id hj
  have hid : (hdrDecode (fragPacket cfg id d j)).id = id := by rw [hdrDecode_fragPacket]
  have hnum : (hdrDecode (fragPacket cfg id d j)).fragNum = BitVec.ofNat 8 (fragCount cfg d.length) := by
    rw [hdrDecode_fragPacket]
  rw [← bufRead_fragPacket hs.valid id hs.nonempty j]
  generalize fragPacket cfg id d j = p at *
  cases ht with
  | first h =>
    have hmiss : t.lookup (hdrDecode p).id = none := by
      rw [hid]
      exact lookup_eq_none.2 fun k _ => h k
    refine ⟨t.tail, acceptMiss cfg (hdrDecode p) t.tail t, ⟨by simp, by simp [hid], fun k' hk' => ?_, by simp [hnum],
      by simp, by simp⟩, ?_⟩
    · rw [acceptMiss_slot_ne _ _ _ hk']
      exact h k'
    · rw [reassemble_slow hl hn hb, slowPath, hmiss]
  | @next _ k _ h =>
    obtain ⟨before, after, horder, hnot⟩ := List.eq_append_cons_of_mem h.mem
    refine ⟨k, acceptHit (hdrDecode p) k t, ⟨by simp, by simp [h.holds], fun k' hk' => ?_, by simp [hnum],
      by simp [h.length], by simpa using h.fragAt⟩, ?_⟩
    · rw [acceptHit_slot_ne _ _ hk']
      exact h.alone k' hk'
    · refine reassemble_hit hl hn hb horder (fun k' hk' => ?_) (h.holds.trans hid.symm) (.inr (h.expected.trans hnum.symm))
      rw [hid]
      exact h.alone k' (ne_of_mem_of_not_mem hk' hnot)

/-- The slot with the packet's fragment in it. -/
theorem store_fragAt {id : BitVec 64} {got : List Nat} {k : SlotIx} {u : DefragTable} (hu : Collecting cfg id d got k u)
    {j : Nat} (hj : j < fragCount cfg d.length) (i : Nat) :
    ((u.slot k).store j (fragPayload cfg d j)).fragAt i = if i ∈ j :: got then some (fragPayload cfg d i) else none := by
  by_cases hij : i = j
  · subst hij
    have := hs.fits
    simp [store_fragAt_same (u.slot k) i _ (by rw [hu.length]; omega)]
  · simp [store_fragAt_ne (u.slot k) _ hij, hu.fragAt, hij]

/-- A packet after which one is still to come leaves the datagram pending. -/
theorem reassemble_awaiting_pending {id : BitVec 64} {got : List Nat} {t : DefragTable} (ht : Awaiting cfg id d got t)
    {j : Nat} (hj : j < fragCount cfg d.length) (hlack : ∃ i < fragCount cfg d.length, i ∉ j :: got) :
    ∃ u, reassemble cfg (fragPacket cfg id d j) t = ⟨.pending, .nothing, u⟩ ∧ Awaiting cfg id d (j :: got) u := by
  obtain ⟨k, u, hu, hr⟩ := reassemble_awaiting hs ht hj
  obtain ⟨i, hi, hmem⟩ := hlack
  have hstore := store_fragAt hs hu hj
  have hpend : ((u.slot k).store (hdrDecode (fragPacket cfg id d j)).fragN.toNat (fragPayload cfg d j)).allPresent
      (hdrDecode (fragPacket cfg id d j)).fragNum.toNat = false := by
    rw [fragN_fragPacket hs id hj, fragNum_fragPacket hs id j, ← Bool.not_eq_true, allPresent_iff]
    intro hall
    have := hall i hi
    rw [hstore, if_neg hmem] at this
    exact absurd this (by simp)
  rw [hr, storeFragment_pending hpend]
  refine ⟨_, rfl, .next (k := k) ⟨hu.mem, by simp [hu.holds], fun k' hk' => ?_, by simp [hu.expected], by simp [hu.length], ?_⟩⟩
  · rw [slot_setSlot_ne _ _ hk']
    exact hu.alone k' hk'
  · intro i
    rw [slot_setSlot_same, fragN_fragPacket hs id hj]
    exact hstore i

/-- The packet that completes the datagram gives it back. -/
theorem reassemble_awaiting_complete {id : BitVec 64} {got : List Nat} {t : DefragTable} (ht : Awaiting cfg id d got t)
    {j : Nat} (hj : j < fragCount cfg d.length) (hall : ∀ i < fragCount cfg d.length, i ∈ j :: got) :
    ∃ u, reassemble cfg (fragPacket cfg id d j) t = ⟨.emitReasm, .datagram d, u⟩ := by
  obtain ⟨k, u, hu, hr⟩ := reassemble_awaiting hs ht hj
  obtain ⟨-, hm, -⟩ := (valid_iff cfg).1 hs.valid
  have hstore : ∀ i < fragCount cfg d.length,
      ((u.slot k).store j (fragPayload cfg d j)).fragAt i = some (fragPayload cfg d i) := fun i hi => by
    rw [store_fragAt hs hu hj, if_pos (hall i hi)]
  have hdone : ((u.slot k).store (hdrDecode (fragPacket cfg id d j)).fragN.toNat (fragPayload cfg d j)).allPresent
      (hdrDecode (fragPacket cfg id d j)).fragNum.toNat = true := by
    rw [fragN_fragPacket hs id hj, fragNum_fragPacket hs id j, allPresent_iff]
    exact fun i hi => by rw [hstore i hi]; rfl
  have hgather : ((u.slot k).store j (fragPayload cfg d j)).gather (fragCount cfg d.length) = d := by
    have := gather_eq_flatten (sl := (u.slot k).store j (fragPayload cfg d j))
      (frags := (List.range (fragCount cfg d.length)).map (fragPayload cfg d))
      fun i hi => by simpa using hstore i (by simpa using hi)
    simpa [flatten_fragPayload hm hs.nonempty] using this
  rw [hr, storeFragment_complete hdone, fragN_fragPacket hs id hj, fragNum_fragPacket hs id j, hgather]
  exact ⟨_, rfl⟩

end Slow

/-! ## Issuing commands -/

/-- A command issued to an engine whose run goes on is executed. -/
theorem issue_eq_exec {c : Command} {i : Instr} {s : State} (hv : s.cfg.valid = true) (hrun : s.hasEnded c.engine = false)
    (hd : decode c = .ok i) : issue c s = exec i s := by
  rw [issue, step_command (s := s.setInputs (.command c :: s.inputs)) hv rfl, setInputs_hasEnded, hrun, if_neg Bool.false_ne_true,
    present_of_decode_ok hd]
  rfl

theorem issueAll_cons_next {c : Command} {s t : State} (h : issue c s = .next t) (cs : List Command) :
    issueAll (c :: cs) s = issueAll cs t := by
  rw [issueAll, h]

/-- A REASM issued to INGRESS. -/
theorem issue_reasm {p : Bytes} {s : State} (hv : s.cfg.valid = true) (hrun : s.endedI = false) :
    issue (encode (.reasm .ingress p)) s = .next ((s.setTable (reassemble s.cfg p s.table).table).record
      ⟨encode (.reasm .ingress p), (reassemble s.cfg p s.table).status, (reassemble s.cfg p s.table).output⟩) := by
  rw [issue_eq_exec (c := encode (.reasm .ingress p)) (i := .reasm .ingress p) hv hrun rfl, exec_reasm hv]
  rfl

/-- The packets `rest` of a datagram, of which the table has those in `got`, are issued in any order: all but the last end with
`PENDING`, the last gives the datagram back. -/
theorem issueAll_rest {cfg : Cfg} {d : Bytes} (hs : SlowDatagram cfg d) (id : BitVec 64) :
    ∀ (rest got : List Nat) (s : State), s.cfg = cfg → s.endedI = false → Awaiting cfg id d got s.table → rest ≠ [] →
    (got ++ rest).Perm (List.range (fragCount cfg d.length)) →
    ∃ u pendings last, issueAll (rest.map fun j => encode (.reasm .ingress (fragPacket cfg id d j))) s = .next u
      ∧ u.id = s.id ∧ u.traceI = s.traceI ++ pendings ++ [last] ∧ pendings.length + 1 = rest.length
      ∧ (∀ ev ∈ pendings, ev.status = .pending) ∧ last.status = .emitReasm ∧ last.output = .datagram d
  | [], _, _, _, _, _, hne, _ => absurd rfl hne
  | [j], got, s, hcfg, hrun, ht, _, hperm => by
    have hmem : ∀ i, i ∈ got ++ [j] ↔ i < fragCount cfg d.length := fun i => hperm.mem_iff.trans List.mem_range
    obtain ⟨u, hu⟩ := reassemble_awaiting_complete hs ht ((hmem j).1 (by simp))
      fun i hi => by simpa [or_comm] using (hmem i).2 hi
    rw [List.map_singleton, issueAll_cons_next (issue_reasm (hcfg ▸ hs.valid) hrun), hcfg, hu]
    exact ⟨_, [], _, rfl, by simp, by rw [List.append_nil]; rfl, rfl, by simp, rfl, rfl⟩
  | j :: j' :: rest, got, s, hcfg, hrun, ht, _, hperm => by
    have hmem : ∀ i, i ∈ got ++ j :: j' :: rest ↔ i < fragCount cfg d.length :=
      fun i => hperm.mem_iff.trans List.mem_range
    have hperm' : (j :: got ++ j' :: rest).Perm (List.range (fragCount cfg d.length)) :=
      List.perm_middle.symm.trans hperm
    have hstill : j' ∉ j :: got := fun hin =>
      (List.nodup_append.1 (hperm'.nodup_iff.2 List.nodup_range)).2.2 j' hin j' (by simp) rfl
    obtain ⟨v, hr, hv⟩ := reassemble_awaiting_pending hs ht ((hmem j).1 (by simp)) ⟨j', (hmem j').1 (by simp), hstill⟩
    obtain ⟨u, pendings, last, hu, hid, htrace, hlen, hpend, hlast⟩ := issueAll_rest hs id (j' :: rest) (j :: got)
      ((s.setTable v).record ⟨encode (.reasm .ingress (fragPacket cfg id d j)), .pending, .nothing⟩)
      (by simpa using hcfg) (by simpa using hrun) (by simpa using hv) (by simp) hperm'
    refine ⟨u, ⟨encode (.reasm .ingress (fragPacket cfg id d j)), .pending, .nothing⟩ :: pendings, last, ?_, by simpa using hid,
      ?_, by simp [← hlen], by simpa using hpend, hlast⟩
    · rw [List.map_cons, issueAll_cons_next (issue_reasm (hcfg ▸ hs.valid) hrun), hcfg, hr, hu]
    · rw [htrace]
      simp [State.record, encode]

/-! ## SEND -/

/-- The packets emitted by a FRAG stand last among those a program can name. -/
theorem emitted_record (s : State) (d : Bytes) (st : Status) (n : Nat) (ps : List Bytes) :
    (s.record ⟨encode (.frag .egress d), st, .packets n ps⟩).emitted = s.emitted ++ [ps] := by
  simp [State.emitted, State.record, encode, Event.packets]

/-- SEND of a datagram FRAG accepts issues its packets to INGRESS. -/
theorem send_eq {d : Bytes} {s : State} (hv : s.cfg.valid = true) (hrun : s.endedE = false)
    (hf : fragFault s.cfg d.length = none) :
    send d s = issueAll ((List.range (fragCount s.cfg d.length)).map fun j =>
        encode (.reasm .ingress (fragPacket s.cfg s.id d j)))
      ((s.setId (s.id + 1)).record ⟨encode (.frag .egress d), .ok,
        .packets (fragCount s.cfg d.length) (fragPackets s.cfg s.id d)⟩) := by
  rw [send, issue_eq_exec (c := encode (.frag .egress d)) (i := .frag .egress d) hv hrun rfl, exec_frag_ok hv hf]
  simp [emitted_record, fragPackets, Function.comp_def]

/-- A datagram of one packet is that packet's payload, and is given back on the fast path. -/
theorem reassemble_single {cfg : Cfg} {d : Bytes} (hv : cfg.valid = true) (hfloor : cfg.fitsFloor) (hn : 1 ≤ d.length)
    (hone : fragCount cfg d.length = 1) (id : BitVec 64) (t : DefragTable) :
    reassemble cfg (fragPacket cfg id d 0) t = ⟨.emitFast, .datagram d, t⟩ := by
  obtain ⟨-, hm, -⟩ := (valid_iff cfg).1 hv
  have hpay : fragPayload cfg d 0 = d := by simpa [hone] using flatten_fragPayload hm hn
  rw [reassemble_fast (lengthViolation_fragPacket hv rfl hfloor id hn (by omega)), bufRead_fragPacket hv id hn, hpay]
  simp [hdrDecode_fragPacket, hone]

/-- Settles O52: one packet is given back by the fast path, more by `issueAll_rest`. -/
theorem loopbackDelivers : Obligations.LoopbackDelivers := by
  intro d s ⟨hv, _⟩ hfloor ⟨_, hcap⟩ hrunE hrunI hfree hn hmax
  obtain ⟨-, hm, -, -, hcap255, -⟩ := (valid_iff s.cfg).1 hv
  have hfits : fragCount s.cfg d.length ≤ s.cfg.fragCap := (ceilDiv_mono hmax _).trans hcap
  rw [send_eq hv hrunE (fragFault_eq_none hn hmax (hcap.trans hcap255))]
  generalize hs' : (s.setId (s.id + 1)).record _ = s'
  have hcfg : s'.cfg = s.cfg := by simp [← hs']
  have hid : s'.id = s.id + 1 := by simp [← hs']
  have hrun : s'.endedI = false := by simp [← hs', hrunI]
  have hfree' : ∀ k, (s'.table.slot k).id ≠ s.id := by simpa [← hs'] using hfree
  by_cases hone : fragCount s.cfg d.length = 1
  · have hr := reassemble_single hv hfloor hn hone s.id s'.table
    have hissue := issue_reasm (p := fragPacket s.cfg s.id d 0) (hcfg ▸ hv) hrun
    rw [hcfg, hr] at hissue
    rw [hone, List.range_one, List.map_singleton, issueAll_cons_next hissue]
    exact ⟨_, _, rfl, by simpa using hid, List.getLast?_concat, .inl rfl, rfl⟩
  · have hpos := one_le_fragCount hm hn
    have hslow : SlowDatagram s.cfg d := ⟨hv, hfloor, hn, by omega, hfits⟩
    obtain ⟨u, pendings, last, hu, huid, htrace, -, -, hst, hout⟩ := issueAll_rest hslow s.id
      (List.range (fragCount s.cfg d.length)) [] s' hcfg hrun (.first hfree') (by simp; omega) (List.Perm.refl _)
    exact ⟨u, last, hu, huid.trans hid, by rw [htrace, List.getLast?_concat], .inr hst, hout⟩

end Sys2Proof.Machine
end

section
/-! PROOFS. The packet and datagram outputs (spec 20_memory R38, R39, R43): the shape of every packet FRAG emits, when REASM
presents a datagram, and its delivery in any order of arrival. -/

namespace Sys2Proof.Machine

/-! ## The packets FRAG emits -/

theorem alignUp_sub_lt (n : Nat) {B : Nat} (hB : 1 ≤ B) : alignUp n B - n < B := by
  have : alignUp n B ≤ n + B - 1 := Nat.div_mul_le_self _ _
  omega

/-- What follows the payload of a packet is its pad (R50). -/
theorem drop_packet (B : Nat) (id : BitVec 64) (fn fnum : BitVec 8) (pay : Bytes) :
    (packet B id fn fnum pay).drop (12 + pay.length) = pad B pay.length :=
  List.drop_left' (by simp)

theorem fragCount_le_of_fragFault {cfg : Cfg} {n : Nat} (h : fragFault cfg n = none) : fragCount cfg n ≤ 255 := by
  by_contra hmany
  have hmany' : 255 < ceilDiv n cfg.maxPay := Nat.lt_of_not_le hmany
  simp only [fragFault, if_pos hmany'] at h
  split_ifs at h

@[simp] theorem fragPackets_length (cfg : Cfg) (id : BitVec 64) (d : Bytes) :
    (fragPackets cfg id d).length = fragCount cfg d.length := by simp [fragPackets]

@[simp] theorem fragPackets_getElem (cfg : Cfg) (id : BitVec 64) (d : Bytes) {k : Nat} (hk : k < (fragPackets cfg id d).length) :
    (fragPackets cfg id d)[k] = fragPacket cfg id d k := by simp [fragPackets]

/-- Settles O19: packet `k` is `fragPacket k`, whose header decodes to its fields, none of them truncated, and whose tail is
its pad. -/
theorem emittedPacketsAreWellFormed : Obligations.EmittedPacketsAreWellFormed := by
  intro d s t c count ps h ht k hk
  obtain ⟨hv, hf, rfl, rfl⟩ := exec_frag_packets h ht
  obtain ⟨hB, hm, -⟩ := (valid_iff s.cfg).1 hv
  have hn := one_le_length_of_fragFault hf
  have hcount := fragCount_le_of_fragFault hf
  have hk' : k < fragCount s.cfg d.length := by simpa using hk
  have hlen : (fragPacket s.cfg s.id d k).length = alignUp (12 + (fragPayload s.cfg d k).length) s.cfg.block :=
    packet_length _ _ _ _ _ hB
  have htail : (fragPacket s.cfg s.id d k).drop (12 + (fragPayload s.cfg d k).length)
      = pad s.cfg.block (fragPayload s.cfg d k).length := drop_packet _ _ _ _ _
  rw [fragPackets_getElem]
  dsimp only
  rw [fragPacket_len hv s.id hn, hlen, htail, hdrDecode_fragPacket]
  refine ⟨rfl, Nat.mod_eq_of_lt (by omega), Nat.mod_eq_of_lt (by omega), hk', one_le_fragPayload_length hm hn hk',
    fragPayload_length_le hm hn k, rfl, dvd_alignUp _ _, alignUp_sub_lt _ hB, fun b hb => List.eq_of_mem_replicate hb⟩

/-! ## The datagram REASM presents -/

/-- A datagram is presented under `EMIT_FAST` and `EMIT_REASM`, and nothing under any other status (R39). -/
def Answer.PresentsOnEmit (a : Answer) : Prop :=
  ((a.status = .emitFast ∨ a.status = .emitReasm) → ∃ d, a.output = .datagram d)
  ∧ (¬ (a.status = .emitFast ∨ a.status = .emitReasm) → a.output = .nothing)

theorem storeFragment_presentsOnEmit (cfg : Cfg) (h : Header) (pay : Bytes) (k : SlotIx) (t : DefragTable) :
    (storeFragment cfg h pay k t).PresentsOnEmit := by
  obtain ⟨hst, hout⟩ | ⟨hst, d, hout⟩ := storeFragment_status cfg h pay k t
  · exact ⟨by simp [hst], fun _ => hout⟩
  · exact ⟨fun _ => ⟨d, hout⟩, by simp [hst]⟩

theorem reassemble_presentsOnEmit (cfg : Cfg) (p : Bytes) (t : DefragTable) : (reassemble cfg p t).PresentsOnEmit := by
  obtain ⟨-, ⟨hst, hout⟩ | ⟨hkind, hout⟩⟩ | ⟨-, -, -, ⟨k, -, -, hr⟩ | ⟨-, hr⟩⟩ := reassemble_cases cfg p t
  · exact ⟨fun _ => ⟨_, hout⟩, by simp [hst]⟩
  · refine ⟨fun hemit => ?_, fun _ => hout⟩
    rcases hemit with hst | hst <;> rw [hst] at hkind <;> cases hkind
  · exact hr ▸ storeFragment_presentsOnEmit ..
  · exact hr ▸ storeFragment_presentsOnEmit ..

/-- Settles O37: the event a REASM shows is `reassemble`'s answer. -/
theorem reasmPresentsADatagramOnlyOnEmit : Obligations.ReasmPresentsADatagramOnlyOnEmit := by
  intro p s t ev h hobs
  obtain ⟨hv, -⟩ := exec_cases h
  rw [exec_reasm hv] at h
  cases h
  rw [observed_unique hobs (observed_record_setTable _ _ _)]
  exact reassemble_presentsOnEmit s.cfg p s.table

/-! ## Delivery in any order of arrival -/

/-- A FRAG on EGRESS leaves INGRESS alone. -/
theorem exec_frag_keeps_ingress {d : Bytes} {s t : State} (h : exec (.frag .egress d) s = .next t) :
    t.table = s.table ∧ t.traceI = s.traceI ∧ t.endedI = s.endedI := by
  obtain ⟨-, ev, hcmd, ⟨-, htrace, -, -, -, -, hended⟩, hcases⟩ := exec_observed h
  rw [hcmd] at htrace
  obtain ⟨⟨-, htab⟩, -⟩ | ⟨-, -, -, -, -, -, htab⟩ | ⟨p, hi, -⟩ := hcases
  · exact ⟨htab, htrace, hended⟩
  · exact ⟨htab, htrace, hended⟩
  · cases hi

/-- Settles O51: FRAG leaves INGRESS as it was, awaiting the datagram's first packet, and `issueAll_rest` delivers the packets in
the order of `arrival`. -/
theorem anyArrivalOrderDelivers : Obligations.AnyArrivalOrderDelivers := by
  intro d s t c count ps arrival ⟨hv, _⟩ hfloor hrun hfree h ht hmany hfits hperm
  obtain ⟨-, hf, rfl, rfl⟩ := exec_frag_packets h ht
  obtain ⟨htab, htrace, hended⟩ := exec_frag_keeps_ingress h
  have hslow : SlowDatagram s.cfg d := ⟨hv, hfloor, one_le_length_of_fragFault hf, hmany, hfits⟩
  have hcount : arrival.length = fragCount s.cfg d.length := by simpa using hperm.length_eq
  have hcmds : (arrival.map fun k => encode (.reasm .ingress ((fragPackets s.cfg s.id d).getD k [])))
      = arrival.map fun k => encode (.reasm .ingress (fragPacket s.cfg s.id d k)) :=
    List.map_congr_left fun k hk => by
      have hk' : k < fragCount s.cfg d.length := List.mem_range.1 (hperm.mem_iff.1 hk)
      rw [List.getD_eq_getElem _ _ (by simpa using hk'), fragPackets_getElem]
  obtain ⟨u, pendings, last, hu, -, htraceU, hlen, hpend, hst, hout⟩ := issueAll_rest hslow s.id arrival [] t
    (exec_keeps_cfg h) (hended.trans hrun) (.first (htab ▸ hfree)) (List.ne_nil_of_length_pos (by omega)) hperm
  exact ⟨u, pendings, last, hcmds ▸ hu, htrace ▸ htraceU, hlen.trans hcount, hpend, hst, hout⟩

end Sys2Proof.Machine
end

section
/-! PROOFS. The encodings (spec 30_encoding R54-R57): the decoder undoes the encoder, what it rejects, and a command on the wrong
engine (R98). -/

namespace Sys2Proof.Machine

/-! ## The opcode map and the decoder -/

/-- Everything the opcode map can answer (R55): the row, its word, and its engine where the row has only one. -/
theorem opcodeOf_cases {e : Engine} {cw : BitVec 8} {op : Opcode} (h : opcodeOf e cw = some op) :
    (op = .henc ∧ cw = 0x01#8) ∨ (op = .hdec ∧ cw = 0x02#8) ∨ (op = .align ∧ cw = 0x03#8)
    ∨ (op = .frag ∧ cw = 0x04#8 ∧ e = .egress) ∨ (op = .reasm ∧ cw = 0x05#8 ∧ e = .ingress) := by
  unfold opcodeOf at h
  split_ifs at h <;> cases h <;> simp_all

/-- What the opcode map does not have (R57), by the number of the word. -/
theorem opcodeOf_eq_none_iff (e : Engine) (cw : BitVec 8) : opcodeOf e cw = none ↔
    (cw.toNat = 0 ∨ 6 ≤ cw.toNat ∨ (cw.toNat = 4 ∧ e = .ingress) ∨ (cw.toNat = 5 ∧ e = .egress)) := by
  by_cases hin : cw = 0x01#8 ∨ cw = 0x02#8 ∨ cw = 0x03#8 ∨ cw = 0x04#8 ∨ cw = 0x05#8
  · obtain rfl | rfl | rfl | rfl | rfl := hin <;> cases e <;> decide
  · push Not at hin
    obtain ⟨h1, h2, h3, h4, h5⟩ := hin
    have hnone : opcodeOf e cw = none := by simp [opcodeOf, h1, h2, h3, h4, h5]
    have hout : cw.toNat = 0 ∨ 6 ≤ cw.toNat := by bv_omega
    exact iff_of_true hnone (by omega)

/-- The decoder accepts what the opcode map has a row for, with an operand record of that row. -/
theorem decode_eq_ok_iff {c : Command} {i : Instr} : decode c = .ok i ↔
    ∃ op, opcodeOf c.engine c.cw = some op ∧ instrOf c.engine op c.operand = some i := by
  unfold decode
  cases opcodeOf c.engine c.cw with
  | none => simp
  | some op => cases hi : instrOf c.engine op c.operand <;> simp [hi]

/-- The decoder's `illegalOp` is the opcode map's alone: the operand record has no part in it. -/
theorem decode_eq_illegalOp_iff (c : Command) : decode c = .error .illegalOp ↔ opcodeOf c.engine c.cw = none := by
  unfold decode
  cases opcodeOf c.engine c.cw with
  | none => simp
  | some op => cases hi : instrOf c.engine op c.operand <;> simp [hi]

/-! ## The round trip -/

theorem decode_encode {i : Instr} (h : i.wf = true) : decode (encode i) = .ok i := by
  have hrow : Laws.OpcodeRow.Statement i := by
    cases i with
    | henc e id fragn fragnum len => exact Laws.OpcodeRow.henc e id fragn fragnum len
    | hdec e buf => exact Laws.OpcodeRow.hdec e buf
    | align e n => exact Laws.OpcodeRow.align e n
    | frag e dgram => exact Laws.OpcodeRow.frag e dgram
    | reasm e pkt => exact Laws.OpcodeRow.reasm e pkt
  exact decode_eq_ok_iff.2 (hrow.2 h)

/-- Row by row: the instruction read from a word and its operand record encodes back to them. -/
theorem encode_of_decode_ok {c : Command} {i : Instr} (h : decode c = .ok i) : i.wf = true ∧ encode i = c := by
  obtain ⟨op, hop, hi⟩ := decode_eq_ok_iff.1 h
  obtain ⟨e, cw, o⟩ := c
  obtain ⟨rfl, rfl⟩ | ⟨rfl, rfl⟩ | ⟨rfl, rfl⟩ | ⟨rfl, rfl, rfl⟩ | ⟨rfl, rfl, rfl⟩ := opcodeOf_cases hop
  all_goals
    -- a record of another command has no instruction in this row
    cases o <;> cases hi
    exact ⟨rfl, rfl⟩

/-- Settles O1: the round trip, and its converse by the rows of the opcode map. -/
theorem decodesExactlyWhatIsEncoded : Obligations.DecodesExactlyWhatIsEncoded := by
  refine fun c i => ⟨encode_of_decode_ok, ?_⟩
  rintro ⟨hwf, rfl⟩
  exact decode_encode hwf

/-- Settles O2: the decoder calls illegal what the opcode map does not have. -/
theorem illegalCommandsAreTheRest : Obligations.IllegalCommandsAreTheRest := fun c =>
  (decode_eq_illegalOp_iff c).trans (opcodeOf_eq_none_iff c.engine c.cw)

/-- Settles O3: the legal words are encodings, the other two are among the illegal ones. -/
theorem sampleWordsDecode : Obligations.SampleWordsDecode :=
  ⟨decode_encode (i := .henc .ingress 1 5 2 0) rfl, decode_encode (i := .hdec .egress [1, 2]) rfl,
    decode_encode (i := .align .egress 479) rfl, decode_encode (i := .frag .egress [0xaa]) rfl,
    decode_encode (i := .reasm .ingress []) rfl, (illegalCommandsAreTheRest _).2 (by decide),
    (illegalCommandsAreTheRest _).2 (by decide)⟩

/-! ## The wrong engine -/

/-- A REASM on EGRESS (R57). -/
theorem exec_reasm_egress {p : Bytes} {s : State} (hv : s.cfg.valid = true) :
    exec (.reasm .egress p) s = .next (s.record ⟨encode (.reasm .egress p), .errIllegalOp, .nothing⟩) :=
  whenValid_of_valid hv _

/-- Settles O35: both commands record their event and nothing else (`exec_frag_ingress`, `exec_reasm_egress`). -/
theorem wrongEngineIsIllegal : Obligations.WrongEngineIsIllegal := fun _ _ hv =>
  ⟨⟨_, exec_frag_ingress hv, blockSame_record _ _, observed_record _ _⟩,
    ⟨_, exec_reasm_egress hv, blockSame_record _ _, observed_record _ _⟩⟩

end Sys2Proof.Machine
end

section
/-! PROOFS. The HeaderCodec commands (spec 40_codec R59, R60): the bytes HENC writes and the fields HDEC reads, each given without
the codec's own functions (30_encoding R47, R48). -/

namespace Sys2Proof.Machine

/-! ## HENC -/

/-- Byte `j` of a word written little-endian is its bits `8j+7 .. 8j` (R9). -/
theorem bytesLE_eq_map_div (v k : Nat) : bytesLE v k = (List.range k).map fun j => BitVec.ofNat 8 (v / 256 ^ j) := by
  induction k generalizing v with
  | zero => rfl
  | succ k ih =>
    have htail : ∀ j, v / 256 / 256 ^ j = v / 256 ^ (j + 1) := fun j => by rw [Nat.div_div_eq_div_mul, pow_succ']
    simp [bytesLE, ih, htail, List.range_succ_eq_map, Function.comp_def]

theorem bytesLE_toNat {w : Nat} (x : BitVec w) (k : Nat) :
    bytesLE x.toNat k = (List.range k).map fun j => x.extractLsb' (8 * j) 8 := by
  have hbyte : ∀ j, BitVec.ofNat 8 (x.toNat / 256 ^ j) = x.extractLsb' (8 * j) 8 := fun j => by
    simp [BitVec.extractLsb', Nat.shiftRight_eq_div_pow, pow_mul]
  simp [bytesLE_eq_map_div, hbyte]

/-- The 12 header bytes, one by one (R47). -/
theorem hdrEncode_eq (id : BitVec 64) (fn fnum : BitVec 8) (ln : BitVec 16) :
    hdrEncode ⟨id, fn, fnum, ln⟩ =
      [id.extractLsb' 0 8, id.extractLsb' 8 8, id.extractLsb' 16 8, id.extractLsb' 24 8, id.extractLsb' 32 8,
        id.extractLsb' 40 8, id.extractLsb' 48 8, id.extractLsb' 56 8, fn, fnum, ln.extractLsb' 0 8,
        ln.extractLsb' 8 8] := by
  simp [hdrEncode, bytesLE_toNat, List.range_succ]

theorem exec_henc {e : Engine} {id : BitVec 64} {fn fnum : BitVec 8} {ln : BitVec 16} {s : State}
    (hv : s.cfg.valid = true) :
    exec (.henc e id fn fnum ln) s =
      .next (s.record ⟨encode (.henc e id fn fnum ln), .ok, .hdr (hdrEncode ⟨id, fn, fnum, ln⟩)⟩) :=
  whenValid_of_valid hv _

/-- Settles O11: HENC records its event and nothing else, and `hdrEncode_eq` gives the bytes. -/
theorem hencEncodesTheFields : Obligations.HencEncodesTheFields := by
  intro e id fn fnum ln s hv
  rw [exec_henc hv, hdrEncode_eq]
  exact ⟨_, rfl, blockSame_record _ _, observed_record _ _⟩

/-! ## HDEC -/

/-- A read inside the sequence is the little-endian sum of R9. -/
theorem readLE_eq_sum {b : Bytes} {o k : Nat} (h : o + k ≤ b.length) :
    readLE b o k = ∑ j ∈ Finset.range k, (b.getD (o + j) 0).toNat * 256 ^ j := by
  rw [readLE, leNat_eq_sum, bufRead_length b o k h]
  refine Finset.sum_congr rfl fun j hj => ?_
  have hj' : j < k := Finset.mem_range.1 hj
  simp [bufRead, List.getD_eq_getElem?_getD, hj']

/-- A read of as many bytes as the width holds is not truncated by it. -/
theorem toNat_ofNat_readLE {w k : Nat} (hw : 256 ^ k = 2 ^ w) {b : Bytes} {o : Nat} (h : o + k ≤ b.length) :
    (BitVec.ofNat w (readLE b o k)).toNat = ∑ j ∈ Finset.range k, (b.getD (o + j) 0).toNat * 256 ^ j := by
  have hlt : readLE b o k < 2 ^ w := by
    have := leNat_lt (bufRead b o k)
    rwa [bufRead_length b o k h, hw] at this
  rw [BitVec.toNat_ofNat, Nat.mod_eq_of_lt hlt, readLE_eq_sum h]

/-- The four fields of the first 12 bytes (R48). -/
theorem hdrDecode_fields {b : Bytes} (h : 12 ≤ b.length) :
    (hdrDecode b).id.toNat = ∑ k ∈ Finset.range 8, (b.getD k 0).toNat * 256 ^ k
    ∧ (hdrDecode b).fragN = b.getD 8 0 ∧ (hdrDecode b).fragNum = b.getD 9 0
    ∧ (hdrDecode b).len.toNat = (b.getD 10 0).toNat + 256 * (b.getD 11 0).toNat := by
  have hid := toNat_ofNat_readLE (w := 64) (k := 8) (o := 0) (by norm_num) (by omega : 0 + 8 ≤ b.length)
  have hfragN := toNat_ofNat_readLE (w := 8) (k := 1) (o := 8) (by norm_num) (by omega : 8 + 1 ≤ b.length)
  have hfragNum := toNat_ofNat_readLE (w := 8) (k := 1) (o := 9) (by norm_num) (by omega : 9 + 1 ≤ b.length)
  have hlen := toNat_ofNat_readLE (w := 16) (k := 2) (o := 10) (by norm_num) (by omega : 10 + 2 ≤ b.length)
  refine ⟨by simpa only [hdrDecode, Nat.zero_add] using hid, BitVec.eq_of_toNat_eq ?_, BitVec.eq_of_toNat_eq ?_, ?_⟩
  · simpa [hdrDecode] using hfragN
  · simpa [hdrDecode] using hfragNum
  · simpa [hdrDecode, Finset.sum_range_succ, Nat.mul_comm] using hlen

theorem exec_hdec_short {e : Engine} {b : Bytes} {s : State} (hv : s.cfg.valid = true) (h : b.length < 12) :
    exec (.hdec e b) s = .next (s.record ⟨encode (.hdec e b), .errShortBuffer, .nothing⟩) := by
  simp [exec, execHdec, whenValid_of_valid hv, hdecFault, h, raise, finish]

theorem exec_hdec_ok {e : Engine} {b : Bytes} {s : State} (hv : s.cfg.valid = true) (h : 12 ≤ b.length) :
    exec (.hdec e b) s = .next (s.record ⟨encode (.hdec e b), .ok, .fields (hdrDecode b)⟩) := by
  simp [exec, execHdec, whenValid_of_valid hv, hdecFault, Nat.not_lt.2 h, finish]

/-- Settles O12: on either side of 12 bytes HDEC records its event and nothing else, and `hdrDecode_fields` gives the fields. -/
theorem hdecDecodesTheFields : Obligations.HdecDecodesTheFields := by
  intro e b s hv
  rcases Nat.lt_or_ge b.length 12 with h | h
  · exact ⟨_, exec_hdec_short hv h, blockSame_record _ _, fun _ => observed_record _ _, fun h' => by omega⟩
  · exact ⟨_, exec_hdec_ok hv h, blockSame_record _ _, fun h' => by omega,
      fun _ => ⟨hdrDecode b, observed_record _ _, hdrDecode_fields h⟩⟩

end Sys2Proof.Machine
end

section
/-! PROOFS. The header codec is a bijection (spec 40_codec R61): encoding the decoded fields writes each run of bytes back to its
place. -/

namespace Sys2Proof.Machine

/-- Two reads side by side are one read. -/
theorem bufRead_append_bufRead (b : Bytes) (o m n : Nat) : bufRead b o m ++ bufRead b (o + m) n = bufRead b o (m + n) := by
  simp only [bufRead, List.take_add, List.drop_drop]

/-- A field read from inside a sequence, in as many bytes as its width holds, writes back the bytes it was read from. -/
theorem bytesLE_readLE {w k : Nat} (hw : 256 ^ k = 2 ^ w) {b : Bytes} {o : Nat} (h : o + k ≤ b.length) :
    bytesLE (BitVec.ofNat w (readLE b o k)).toNat k = bufRead b o k := by
  have hval : (BitVec.ofNat w (readLE b o k)).toNat = leNat (bufRead b o k) := by
    rw [toNat_ofNat_readLE hw h, ← readLE_eq_sum h, readLE]
  have hback := bytesLE_leNat (bufRead b o k)
  rwa [bufRead_length b o k h, ← hval] at hback

/-- The four fields are read from 8, 1, 1 and 2 bytes side by side, so encoding them gives the first 12 bytes (R47, R48). -/
theorem hdrEncode_hdrDecode {b : Bytes} (h : 12 ≤ b.length) : hdrEncode (hdrDecode b) = b.take 12 := by
  have hid := bytesLE_readLE (w := 64) (k := 8) (o := 0) (by norm_num) (by omega : 0 + 8 ≤ b.length)
  have hfragN := bytesLE_readLE (w := 8) (k := 1) (o := 8) (by norm_num) (by omega : 8 + 1 ≤ b.length)
  have hfragNum := bytesLE_readLE (w := 8) (k := 1) (o := 9) (by norm_num) (by omega : 9 + 1 ≤ b.length)
  have hlen := bytesLE_readLE (w := 16) (k := 2) (o := 10) (by norm_num) (by omega : 10 + 2 ≤ b.length)
  calc hdrEncode (hdrDecode b)
      = bufRead b 0 8 ++ bufRead b (0 + 8) 1 ++ bufRead b (0 + (8 + 1)) 1 ++ bufRead b (0 + (8 + 1 + 1)) 2 := by
        simp only [hdrEncode, hdrDecode, hid, hfragN, hfragNum, hlen, Nat.reduceAdd]
    _ = bufRead b 0 12 := by rw [bufRead_append_bufRead, bufRead_append_bufRead, bufRead_append_bufRead]
    _ = b.take 12 := by rw [bufRead, List.drop_zero]

/-- Settles O4: `hdrDecode_hdrEncode` one way, and `hdrEncode_hdrDecode` the other, where the first 12 bytes are all. -/
theorem headerCodecIsABijection : Obligations.HeaderCodecIsABijection := by
  refine ⟨fun h => ⟨hdrEncode_length h, hdrDecode_hdrEncode h⟩, fun b hb => ?_⟩
  rw [hdrEncode_hdrDecode hb.ge, List.take_of_length_le hb.le]

end Sys2Proof.Machine
end

section
/-! PROOFS. AlignmentMath (spec 41_align R63-R66): among the multiples of `B`, `align_up(n, B)` is the least upper bound of `n`. -/

namespace Sys2Proof.Machine

/-! ## The laws of align_up -/

/-- What "smallest multiple" says (R64): `align_up(n, B)` is at most exactly those multiples of `B` that are at least `n`. -/
theorem alignUp_le_iff_of_dvd {n m B : Nat} (hB : 1 ≤ B) (hm : B ∣ m) : alignUp n B ≤ m ↔ n ≤ m := by
  obtain ⟨q, rfl⟩ := exists_eq_mul_left_of_dvd hm
  rw [alignUp, Nat.mul_le_mul_right_iff hB, ceilDiv_le_iff hB]

theorem alignUp_of_dvd {n B : Nat} (hB : 1 ≤ B) (hn : B ∣ n) : alignUp n B = n :=
  Nat.le_antisymm ((alignUp_le_iff_of_dvd hB hn).2 (Nat.le_refl n)) (le_alignUp n hB)

theorem alignUp_lt_add (n : Nat) {B : Nat} (hB : 1 ≤ B) : alignUp n B < n + B :=
  (Nat.sub_lt_iff_lt_add' (le_alignUp n hB)).1 (alignUp_sub_lt n hB)

theorem alignUp_mono {n n' : Nat} (h : n ≤ n') (B : Nat) : alignUp n B ≤ alignUp n' B :=
  Nat.mul_le_mul_right B (ceilDiv_mono h B)

/-- On `(kB, (k+1)B]` the next multiple is `(k+1)B`: it is a multiple at least `n`, and the ones up to `kB` are too small. -/
theorem alignUp_eq_of_mem_interval {n k B : Nat} (hB : 1 ≤ B) (hlo : k * B < n) (hhi : n ≤ (k + 1) * B) :
    alignUp n B = (k + 1) * B := by
  have hceil : k < ceilDiv n B := (lt_ceilDiv_iff hB).2 hlo
  exact Nat.le_antisymm ((alignUp_le_iff_of_dvd hB (Nat.dvd_mul_left B (k + 1))).2 hhi) (Nat.mul_le_mul_right B hceil)

/-- Settles O14: the value is a multiple of `B`, so rounding it up again leaves it. -/
theorem alignUpLaws : Obligations.AlignUpLaws := fun n B hB =>
  ⟨alignUp_of_dvd hB (dvd_alignUp n B), le_alignUp n hB, alignUp_lt_add n hB, Nat.mod_eq_zero_of_dvd (dvd_alignUp n B)⟩

/-- Settles O15: for `B` of 2 or more, 1 and 2 lie in the one interval `(0, B]`. -/
theorem alignUpMonotoneNotInjective : Obligations.AlignUpMonotoneNotInjective := by
  refine ⟨fun n n' B _ h => alignUp_mono h B, fun n k B => alignUp_eq_of_mem_interval, fun B hB => ⟨1, 2, by decide, ?_⟩⟩
  have hfirst : ∀ n, 1 ≤ n → n ≤ 2 → alignUp n B = (0 + 1) * B := fun n h1 h2 =>
    alignUp_eq_of_mem_interval (by omega) (by omega) (by omega)
  exact (hfirst 1 (by decide) (by decide)).trans (hfirst 2 (by decide) (by decide)).symm

/-! ## ALIGN -/

theorem exec_align {e : Engine} {n : Nat} {s : State} (hv : s.cfg.valid = true) :
    exec (.align e n) s = .next (s.record ⟨encode (.align e n), .ok, .natural (alignUp n s.cfg.block)⟩) :=
  whenValid_of_valid hv _

/-- Settles O13: ALIGN records its event and nothing else, and its value is the smallest multiple (`alignUp_le_iff_of_dvd`). -/
theorem alignGivesTheSmallestMultiple : Obligations.AlignGivesTheSmallestMultiple := by
  intro e n s hv
  obtain ⟨hB, -⟩ := (valid_iff s.cfg).1 hv
  exact ⟨_, _, exec_align hv, blockSame_record _ _, observed_record _ _, rfl, dvd_alignUp n s.cfg.block, le_alignUp n hB,
    fun _ hdvd hle => (alignUp_le_iff_of_dvd hB hdvd).2 hle⟩

end Sys2Proof.Machine
end

section
/-! PROOFS. The Fragmenter (spec 42_fragmenter R67-R76): the answer of FRAG on every input, the lengths of its fragments, and the
datagram its packets carry. -/

namespace Sys2Proof.Machine

/-! ## The answer of FRAG -/

/-- What follows from FRAG's checks, in the order they are made (R68). -/
theorem fragFault_elim {α : Type} (cfg : Cfg) (n : Nat) (accepted : α) (fault : Status → α) :
    (fragFault cfg n).elim accepted fault =
      if n = 0 then fault .frEmpty else if cfg.maxDgram < n then fault .frTooLong
      else if 255 < ceilDiv n cfg.maxPay then fault .frTooMany else accepted := by
  unfold fragFault
  split_ifs <;> rfl

/-- The bytes of a packet, its payload's length given by the datagram's (R70-R72). -/
theorem fragPacket_eq (cfg : Cfg) (id : BitVec 64) (d : Bytes) {k L : Nat}
    (hL : min (fragSize cfg d.length) (d.length - k * fragSize cfg d.length) = L) :
    fragPacket cfg id d k =
      hdrEncode ⟨id, BitVec.ofNat 8 k, BitVec.ofNat 8 (fragCount cfg d.length), BitVec.ofNat 16 L⟩
        ++ (d.drop (k * fragSize cfg d.length)).take L ++ List.replicate (alignUp (12 + L) cfg.block - (12 + L)) 0 := by
  rw [fragPacket, packet, fragPayload_length, hL, fragPayload, hL]
  rfl

/-- Settles O16: on EGRESS the answer is decided by `fragFault` (`fragFault_elim`), and the packets are those of
`fragPacket_eq`. -/
theorem fragSplitsTheDatagram : Obligations.FragSplitsTheDatagram := by
  intro e d s hv n fnum plen pkt answer
  cases e with
  | ingress => exact ⟨_, exec_frag_ingress hv, record_id _ _, record_table _ _, observed_record _ _⟩
  | egress =>
    have hpkts : (List.range fnum).map pkt = fragPackets s.cfg s.id d :=
      List.map_congr_left fun k _ => (fragPacket_eq s.cfg s.id d rfl).symm
    have hanswer : answer = (fragFault s.cfg n).elim (.ok, .packets fnum (fragPackets s.cfg s.id d), s.id + 1)
        fun st => (st, .nothing, s.id) := by
      rw [fragFault_elim, ← hpkts]
      exact if_neg nofun
    rw [hanswer]
    cases hf : fragFault s.cfg n with
    | some st => exact ⟨_, exec_frag_fault hv hf, record_id _ _, record_table _ _, observed_record _ _⟩
    | none => exact ⟨_, exec_frag_ok hv hf, record_id _ _, record_table _ _, observed_record_setId _ _ _⟩

/-! ## The lengths of the fragments -/

/-- The payloads are the datagram, so their lengths add up to its own (R75(c)). -/
theorem sum_fragPayload_length {cfg : Cfg} {d : Bytes} (hm : 1 ≤ cfg.maxPay) (hn : 1 ≤ d.length) :
    ((List.range (fragCount cfg d.length)).map fun k => (fragPayload cfg d k).length).sum = d.length := by
  calc ((List.range (fragCount cfg d.length)).map fun k => (fragPayload cfg d k).length).sum
      = ((List.range (fragCount cfg d.length)).map (fragPayload cfg d)).flatten.length := by
        rw [List.length_flatten, List.map_map, Function.comp_def]
    _ = d.length := by rw [flatten_fragPayload hm hn]

/-- Settles O17: the last fragment starts inside the datagram and ends at its end, which gives the lengths; the headers are those
of `hdrDecode_fragPacket`. -/
theorem fragmentLengths : Obligations.FragmentLengths := by
  intro cfg d hv hn n fnum plen L
  obtain ⟨-, hm, hmax, -⟩ := (valid_iff cfg).1 hv
  have hcount : 1 ≤ fnum := one_le_fragCount hm hn
  have hsize : plen ≤ cfg.maxPay := fragSize_le_maxPay hm hn
  have hlast : (fnum - 1) * plen < n := mul_fragSize_lt hm hn (Nat.sub_lt hcount Nat.one_pos)
  have hend : n ≤ fnum * plen := le_fragCount_mul_fragSize hm hn
  have hL : ∀ k, L k = (fragPayload cfg d k).length := fun k => (fragPayload_length cfg d k).symm
  refine ⟨hsize, hmax, hcount, hlast, hend, fun k hk => ?_, ?_, fun k hk => ?_, ?_, fun hmany id k hk => ?_⟩
  · have hnext : (k + 1) * plen ≤ (fnum - 1) * plen := Nat.mul_le_mul_right plen hk
    rw [Nat.succ_mul] at hnext
    exact Nat.min_eq_left (by omega)
  · rw [← Nat.sub_add_cancel hcount, Nat.succ_mul] at hend
    exact Nat.min_eq_right (by omega)
  · exact ⟨hL k ▸ one_le_fragPayload_length hm hn hk, Nat.min_le_left _ _⟩
  · simp only [hL]
    exact sum_fragPayload_length hm hn
  · have hle : L k ≤ plen := Nat.min_le_left _ _
    refine ⟨hL k ▸ hdrDecode_fragPacket cfg id d k, Nat.mod_eq_of_lt ?_, Nat.mod_eq_of_lt ?_, Nat.mod_eq_of_lt ?_⟩ <;> omega

/-! ## The packets put together -/

theorem fragCount_eq_one {cfg : Cfg} {n : Nat} (hm : 1 ≤ cfg.maxPay) (hn : 1 ≤ n) (hle : n ≤ cfg.maxPay) :
    fragCount cfg n = 1 :=
  Nat.le_antisymm ((ceilDiv_le_iff hm).2 (by omega)) (one_le_fragCount hm hn)

/-- Reading each packet's payload by its own header gives the payloads FRAG cut. -/
theorem map_bufRead_fragPackets {cfg : Cfg} (hv : cfg.valid = true) (id : BitVec 64) {d : Bytes} (hn : 1 ≤ d.length) :
    ((fragPackets cfg id d).map fun p => bufRead p 12 (hdrDecode p).len.toNat)
      = (List.range (fragCount cfg d.length)).map (fragPayload cfg d) := by
  simp [fragPackets, Function.comp_def, bufRead_fragPacket hv id hn]

theorem map_len_fragPackets {cfg : Cfg} (hv : cfg.valid = true) (id : BitVec 64) {d : Bytes} (hn : 1 ≤ d.length) :
    ((fragPackets cfg id d).map fun p => (hdrDecode p).len.toNat)
      = (List.range (fragCount cfg d.length)).map fun k => (fragPayload cfg d k).length := by
  simp [fragPackets, Function.comp_def, fragPacket_len hv id hn]

/-- A packet that is long enough for a receiver of the same block size passes its length checks (R79, R81). -/
theorem lengthViolation_fragPacket_of_le {cfg receiver : Cfg} (hv : cfg.valid = true) (hblock : receiver.block = cfg.block)
    (id : BitVec 64) {d : Bytes} (hn : 1 ≤ d.length) {k : Nat}
    (hle : 12 + receiver.minPay ≤ (fragPacket cfg id d k).length) :
    lengthViolation receiver (fragPacket cfg id d k) = none := by
  obtain ⟨hB, -⟩ := (valid_iff cfg).1 hv
  rw [lengthViolation_eq_none, fragPacket_len hv id hn, hblock]
  exact ⟨hle, packet_length _ _ _ _ _ hB⟩

/-- The only packet of a datagram is delivered on the fast path by every receiver whose floor it passes (R76, R83). -/
theorem reassemble_onlyPacket {cfg receiver : Cfg} (hv : cfg.valid = true) (hblock : receiver.block = cfg.block)
    {id : BitVec 64} {d : Bytes} (hn : 1 ≤ d.length) (hone : fragCount cfg d.length = 1)
    (hle : 12 + receiver.minPay ≤ (fragPacket cfg id d 0).length) (t : DefragTable) :
    reassemble receiver (fragPacket cfg id d 0) t = ⟨.emitFast, .datagram d, t⟩ := by
  obtain ⟨-, hm, -⟩ := (valid_iff cfg).1 hv
  have hpay : fragPayload cfg d 0 = d := by simpa [hone] using flatten_fragPayload hm hn
  rw [reassemble_fast (lengthViolation_fragPacket_of_le hv hblock id hn hle), bufRead_fragPacket hv id hn, hpay]
  simp [hdrDecode_fragPacket, hone]

/-- Settles O18: the payloads read from the packets are those FRAG cut, which are the datagram (`flatten_fragPayload`), and a
single packet goes through `reassemble_onlyPacket`. -/
theorem fragmentsReproduceTheDatagram : Obligations.FragmentsReproduceTheDatagram := by
  intro d s t c count ps h ht
  obtain ⟨hv, hf, rfl, rfl⟩ := exec_frag_packets h ht
  obtain ⟨-, hm, -⟩ := (valid_iff s.cfg).1 hv
  have hn := one_le_length_of_fragFault hf
  rw [map_bufRead_fragPackets hv s.id hn, map_len_fragPackets hv s.id hn]
  refine ⟨rfl, fragPackets_length _ _ _, flatten_fragPayload hm hn, sum_fragPayload_length hm hn, fun hle => ?_⟩
  have hone := fragCount_eq_one hm hn hle
  refine ⟨fragPacket s.cfg s.id d 0, by simp [fragPackets, hone], by simp [hdrDecode_fragPacket, hone],
    fun r hr hblock hfloor => ⟨_, exec_reasm hr, ?_⟩⟩
  rw [reassemble_onlyPacket hv hblock hn hone hfloor]
  exact ⟨blockSame_record _ _, observed_record_setTable _ _ _⟩

end Sys2Proof.Machine
end

section
/-! PROOFS. The Reassembler (spec 43_reassembler R79-R95): the status of every rejection, where an accepted fragment goes on a hit
and on a miss, the completion of a datagram, and the reassembly that may follow it. -/

namespace Sys2Proof.Machine

/-! ## REASM shows the answer of `reassemble` -/

/-- A REASM on INGRESS shows `reassemble`'s answer, writes its table, and nothing else. -/
theorem exec_reasm_answer {p : Bytes} {s : State} {a : Answer} (hv : s.cfg.valid = true)
    (ha : reassemble s.cfg p s.table = a) :
    ∃ t, exec (.reasm .ingress p) s = .next t ∧ t.id = s.id
      ∧ Observed ⟨⟨.ingress, 0x05#8, .bytes p⟩, a.status, a.output⟩ s t ∧ t.table = a.table :=
  ha ▸ ⟨_, exec_reasm hv, by simp, observed_record_setTable _ _ _, by simp⟩

/-- An answer that leaves the table alone leaves the block alone (R92). -/
theorem exec_reasm_unchanged {p : Bytes} {s : State} {st : Status} {out : Output} (hv : s.cfg.valid = true)
    (ha : reassemble s.cfg p s.table = ⟨st, out, s.table⟩) :
    ∃ t, exec (.reasm .ingress p) s = .next t ∧ BlockSame s t
      ∧ Observed ⟨⟨.ingress, 0x05#8, .bytes p⟩, st, out⟩ s t := by
  obtain ⟨t, ht, hid, hobs, htab⟩ := exec_reasm_answer hv ha
  exact ⟨t, ht, ⟨hid, htab⟩, hobs⟩

/-- What a REASM on INGRESS wrote and showed is `reassemble`'s answer. -/
theorem exec_reasm_inv {p : Bytes} {s t : State} {ev : Event} (h : exec (.reasm .ingress p) s = .next t)
    (hobs : Observed ev s t) :
    t.id = s.id ∧ t.table = (reassemble s.cfg p s.table).table ∧ ev.status = (reassemble s.cfg p s.table).status := by
  obtain ⟨hv, -⟩ := exec_cases h
  rw [exec_reasm hv] at h
  cases h
  simp [observed_unique hobs (observed_record_setTable _ _ _)]

/-! ## Rejections and the fast path -/

/-- Settles O21: the first check is the floor. -/
theorem reasmRejectsShortPackets : Obligations.ReasmRejectsShortPackets := by
  intro p s hv hshort
  have hl : lengthViolation s.cfg p = some .pvShort := if_pos hshort
  exact exec_reasm_unchanged hv (reassemble_length hl)

/-- Past the floor the only violation of the length is a length other than the one `Len` implies (R81). -/
theorem lengthViolation_of_length_ne {cfg : Cfg} {p : Bytes} (hfloor : 12 + cfg.minPay ≤ p.length)
    (hne : p.length ≠ alignUp (12 + (hdrDecode p).len.toNat) cfg.block) : lengthViolation cfg p = some .pvLength := by
  unfold lengthViolation
  rw [if_neg (Nat.not_lt.2 hfloor), if_pos hne]

theorem slowPath_status_ne_pvLength (cfg : Cfg) (h : Header) (pay : Bytes) (t : DefragTable) :
    (slowPath cfg h pay t).status ≠ .pvLength := by
  have hstore : ∀ k u, (storeFragment cfg h pay k u).status ≠ .pvLength := fun k u => by
    obtain ⟨hst, -⟩ | ⟨hst, -⟩ := storeFragment_status cfg h pay k u <;> simp [hst]
  unfold slowPath
  split
  · split
    · exact nofun
    · exact hstore _ _
  · exact hstore _ _

/-- Past the length checks no later cause has the status `PV_LENGTH`. -/
theorem reassemble_status_ne_pvLength {cfg : Cfg} {p : Bytes} (hl : lengthViolation cfg p = none) (t : DefragTable) :
    (reassemble cfg p t).status ≠ .pvLength := by
  rcases Nat.lt_or_ge 1 (hdrDecode p).fragNum.toNat with hn | hn
  · cases hb : badHeader cfg (hdrDecode p) with
    | true => simp [reassemble_badHeader hl hn hb]
    | false => rw [reassemble_slow hl hn hb]; exact slowPath_status_ne_pvLength _ _ _ _
  · simp [reassemble_fast hl hn]

/-- Settles O22: a length other than the one `Len` implies is rejected before anything else past the floor, and `Len` implies
only multiples of the block. -/
theorem reasmRejectsWrongLengths : Obligations.ReasmRejectsWrongLengths := by
  intro p s hv hfloor
  obtain ⟨-, -, -, hlen⟩ := hdrDecode_fields (b := p) (by omega)
  rw [← hlen]
  by_cases heq : p.length = alignUp (12 + (hdrDecode p).len.toNat) s.cfg.block
  · have hst := reassemble_status_ne_pvLength (lengthViolation_eq_none.2 ⟨hfloor, heq⟩) s.table
    have hdvd : s.cfg.block ∣ p.length := heq ▸ dvd_alignUp _ _
    obtain ⟨t, ht, -, hobs, -⟩ := exec_reasm_answer (p := p) hv rfl
    exact ⟨t, _, _, ht, hobs, iff_of_false hst (not_not.2 heq), fun hno => absurd hdvd hno, fun h => absurd h hst⟩
  · obtain ⟨t, ht, hsame, hobs⟩ := exec_reasm_unchanged hv (reassemble_length (lengthViolation_of_length_ne hfloor heq))
    exact ⟨t, _, _, ht, hobs, iff_of_true rfl heq, fun _ => rfl, fun _ => ⟨hsame, rfl⟩⟩

/-- Settles O23: the length check gives the extent of the payload (R82), and the fast path leaves the table alone. -/
theorem reasmFastPathDelivers : Obligations.ReasmFastPathDelivers := by
  intro p s hv hl hn
  obtain ⟨hB, -⟩ := (valid_iff s.cfg).1 hv
  obtain ⟨-, hlen⟩ := lengthViolation_eq_none.1 hl
  exact ⟨hlen ▸ le_alignUp _ hB, exec_reasm_unchanged hv (reassemble_fast hl hn)⟩

/-- Settles O24: the header check comes before the lookup. -/
theorem reasmRejectsBadHeaders : Obligations.ReasmRejectsBadHeaders := by
  intro p s hv hl hn hbad
  have hb : badHeader s.cfg (hdrDecode p) = true := by simpa [badHeader] using hbad
  exact exec_reasm_unchanged hv (reassemble_badHeader hl hn hb)

theorem countMismatch_eq_false_iff {h : Header} {k : SlotIx} {t : DefragTable} :
    countMismatch h k t = false ↔ (t.slot k).count = 0 ∨ (t.slot k).expected = h.fragNum := by
  simp [countMismatch, or_iff_not_imp_left]

/-- A hit on a reassembly in progress under another count (R86). -/
theorem reassemble_mismatch {cfg : Cfg} {p : Bytes} {t : DefragTable} {k : SlotIx} (hl : lengthViolation cfg p = none)
    (hn : 2 ≤ (hdrDecode p).fragNum.toNat) (hb : badHeader cfg (hdrDecode p) = false)
    (hk : t.lookup (hdrDecode p).id = some k) (hm : countMismatch (hdrDecode p) k t = true) :
    reassemble cfg p t = ⟨.pvCountMismatch, .nothing, t⟩ := by
  simp [reassemble_slow hl hn hb, slowPath, hk, hm, answerUnchanged]

/-- Settles O25: the lookup finds the head-most matching slot, and the count check rejects before the slot is touched. -/
theorem reasmRejectsCountMismatch : Obligations.ReasmRejectsCountMismatch := by
  intro p s k before after hv hl hn hb horder hbefore hid hcount hexp
  have hk := lookup_eq_some.2 ⟨hid, before, after, horder, hbefore⟩
  have hm : countMismatch (hdrDecode p) k s.table = true := by simp [countMismatch, hcount, hexp]
  exact exec_reasm_unchanged hv (reassemble_mismatch hl hn hb hk hm)

/-- Only `PENDING` and `EMIT_REASM` come with a written table. -/
theorem reassemble_table_of_status {cfg : Cfg} {p : Bytes} {t : DefragTable}
    (hpend : (reassemble cfg p t).status ≠ .pending) (hemit : (reassemble cfg p t).status ≠ .emitReasm) :
    (reassemble cfg p t).table = t := by
  have hstore : ∀ h pay k u, reassemble cfg p t ≠ storeFragment cfg h pay k u := fun h pay k u hr => by
    rw [hr] at hpend hemit
    obtain ⟨hst, -⟩ | ⟨hst, -⟩ := storeFragment_status cfg h pay k u
    · exact hpend hst
    · exact hemit hst
  obtain ⟨htab, -⟩ | ⟨-, -, -, ⟨k, -, -, hr⟩ | ⟨-, hr⟩⟩ := reassemble_cases cfg p t
  · exact htab
  · exact absurd hr (hstore _ _ _ _)
  · exact absurd hr (hstore _ _ _ _)

/-- Settles O30: none of the five statuses is one under which a REASM writes the table. -/
theorem reasmRejectionWritesNothing : Obligations.ReasmRejectionWritesNothing := by
  intro p s t ev h hobs hst
  obtain ⟨hid, htab, hev⟩ := exec_reasm_inv h hobs
  rw [hev] at hst
  refine ⟨hid, htab.trans (reassemble_table_of_status (fun hp => ?_) fun he => ?_)⟩
  · simp [hp] at hst
  · simp [he] at hst

/-! ## A stored fragment -/

/-- A store at another index leaves an absent entry absent. -/
theorem allPresent_store_eq_false {sl : Slot} {i j n : Nat} {pay : Bytes} (hj : j < n) (hne : j ≠ i)
    (habsent : sl.fragAt j = none) : (sl.store i pay).allPresent n = false := by
  rw [← Bool.not_eq_true, allPresent_iff]
  intro hall
  have := hall j hj
  simp [store_fragAt_ne sl pay hne, habsent] at this

/-- A store that leaves a fragment of the readied slot absent: the slot stands at the head with the payload in it, and the rest is
as before (R89, R90). -/
theorem exec_reasm_pending {p : Bytes} {s : State} {k : SlotIx} {before after : List SlotIx} {u : DefragTable} (hinv : s.Inv)
    (hb : badHeader s.cfg (hdrDecode p) = false) (horder : s.table.order = before ++ k :: after)
    (hu : DefragTable.ReadyAt s.cfg (hdrDecode p) k s.table u)
    (hr : reassemble s.cfg p s.table
      = storeFragment s.cfg (hdrDecode p) (bufRead p 12 (hdrDecode p).len.toNat) k u)
    (hlack : ((u.slot k).store (hdrDecode p).fragN.toNat (bufRead p 12 (hdrDecode p).len.toNat)).allPresent
      (hdrDecode p).fragNum.toNat = false) :
    ∃ t, exec (.reasm .ingress p) s = .next t ∧ t.id = s.id
      ∧ Observed ⟨⟨.ingress, 0x05#8, .bytes p⟩, .pending, .nothing⟩ s t
      ∧ t.table.order = k :: (before ++ after)
      ∧ (∀ k', k' ≠ k → t.table.slot k' = s.table.slot k')
      ∧ (t.table.slot k).id = (u.slot k).id ∧ (t.table.slot k).expected = (hdrDecode p).fragNum
      ∧ (t.table.slot k).fragAt (hdrDecode p).fragN.toNat = some ((p.drop 12).take (hdrDecode p).len.toNat)
      ∧ ∀ j, j ≠ (hdrDecode p).fragN.toNat → (t.table.slot k).fragAt j = (u.slot k).fragAt j := by
  obtain ⟨hv, -, hperm, -⟩ := hinv
  obtain ⟨hcap, hN⟩ := badHeader_eq_false hb
  have hlen := hu.ready.length
  have hnodup : (before ++ k :: after).Nodup := horder ▸ hperm.nodup_iff.2 (by decide)
  obtain ⟨t, ht, hid, hobs, htab⟩ := exec_reasm_answer hv (hr.trans (storeFragment_pending hlack))
  refine ⟨t, ht, hid, hobs, ?_⟩
  rw [htab, slot_setSlot_same]
  refine ⟨?_, fun k' hk' => ?_, rfl, hu.ready.expected, store_fragAt_same _ _ _ (by omega), fun j hj => store_fragAt_ne _ _ hj⟩
  · rw [order_setSlot, hu.order, horder, filter_ne_of_nodup hnodup]
  · rw [slot_setSlot_ne _ _ hk', hu.others k' hk']

/-- Settles O26: an accepted hit readies the slot found, whose absent entry leaves the datagram pending. -/
theorem reasmHitStoresTheFragment : Obligations.ReasmHitStoresTheFragment := by
  intro p s k before after j hinv hl hn hb horder hbefore hid hacc hj hne habsent
  have hu := acceptHit_readyAt hinv.2 (countMismatch_eq_false_iff.2 hacc)
  have hr := reassemble_hit hl hn hb horder hbefore hid hacc
  have hlack := allPresent_store_eq_false (sl := (acceptHit (hdrDecode p) k s.table).slot k)
    (pay := bufRead p 12 (hdrDecode p).len.toNat) hj hne (by simpa using habsent)
  simpa only [acceptHit_slot_same, setExpected_id, setExpected_fragAt, hid]
    using exec_reasm_pending hinv hb horder hu hr hlack

/-- Settles O28: a miss readies the tail as a slot without fragments, and the packet's one fragment is not all of them. -/
theorem reasmMissEvictsTheTail : Obligations.ReasmMissEvictsTheTail := by
  intro p s k front hinv hl hn hb hmiss horder
  have hr : reassemble s.cfg p s.table = storeFragment s.cfg (hdrDecode p) (bufRead p 12 (hdrDecode p).len.toNat) k
      (acceptMiss s.cfg (hdrDecode p) k s.table) := by
    rw [reassemble_slow hl hn hb, slowPath, lookup_eq_none.2 fun j _ => hmiss j, tail_append _ _ _ horder]
  simpa only [acceptMiss_slot_same, fresh_id, fresh_fragAt, List.append_nil]
    using exec_reasm_pending hinv hb horder (acceptMiss_readyAt hmiss k) hr (acceptMiss_not_complete hn)

/-! ## Completion -/

/-- A slot that holds every fragment but the one stored holds them all after the store. -/
theorem store_fragAt_of_rest {sl : Slot} {i : Nat} {pay : Bytes} {frags : List Bytes} (hi : i < sl.frag.length)
    (hrest : ∀ j (hj : j < frags.length), j ≠ i → sl.fragAt j = some frags[j]) (hpay : frags[i]? = some pay)
    (j : Nat) (hj : j < frags.length) : (sl.store i pay).fragAt j = some frags[j] := by
  by_cases hji : j = i
  · subst hji
    rw [store_fragAt_same _ _ _ hi, ← hpay, List.getElem?_eq_getElem hj]
  · rw [store_fragAt_ne _ _ hji, hrest j hj hji]

/-- Settles O27: with the packet's payload the readied slot holds all of `frags`, so the store empties it and moves it to the
tail. -/
theorem reasmCompletesTheDatagram : Obligations.ReasmCompletesTheDatagram := by
  intro p s k before after frags ⟨hv, hok⟩ hl hn hb horder hbefore hid hcount hrest hpay hexp
  obtain ⟨hcap, hN⟩ := badHeader_eq_false hb
  have hnodup : (before ++ k :: after).Nodup := horder ▸ hok.2.1.nodup_iff.2 (by decide)
  have hlen : ((acceptHit (hdrDecode p) k s.table).slot k).frag.length = s.cfg.fragCap := by simpa using (hok.1 k).1
  have hall := store_fragAt_of_rest (sl := (acceptHit (hdrDecode p) k s.table).slot k)
    (pay := bufRead p 12 (hdrDecode p).len.toNat) (by omega) (by simpa using hrest) hpay
  have hpresent := (allPresent_iff _ (hdrDecode p).fragNum.toNat).2 fun j hj => by
    rw [hall j (by omega)]; rfl
  have hr := (reassemble_hit hl hn hb horder hbefore hid (.inr hexp)).trans (storeFragment_complete hpresent)
  rw [← hcount, gather_eq_flatten hall] at hr
  obtain ⟨t, ht, htid, hobs, htab⟩ := exec_reasm_answer hv hr
  refine ⟨t, ht, htid, hobs, ?_⟩
  rw [htab]
  refine ⟨?_, fun k' hk' => ?_, by simp, by simp [hexp], by simp⟩
  · simp [horder, ← filter_ne_of_nodup hnodup]
  · rw [slot_demote, slot_setSlot_ne _ _ hk', acceptHit_slot_ne _ _ hk']

/-! ## Isolation -/

theorem getLast?_order {t : DefragTable} (hperm : t.order.Perm [0, 1, 2]) : t.order.getLast? = some t.tail := by
  obtain hnil | ⟨front, k, hk⟩ := List.eq_nil_or_concat t.order
  · simp [hnil] at hperm
  · rw [List.concat_eq_append] at hk
    rw [tail_append t front k hk, hk, List.getLast?_concat]

/-- Settles O31: what is stored goes into the slot found or, when no slot holds the `Id`, into the tail. -/
theorem reasmTouchesOnlyItsOwnSlot : Obligations.ReasmTouchesOnlyItsOwnSlot := by
  intro p s t k ⟨hv, _, hperm, _⟩ h
  rw [exec_reasm hv] at h
  cases h
  rw [record_table, setTable_table]
  obtain ⟨htab, -⟩ | ⟨-, -, -, ⟨k', hfound, -, hr⟩ | ⟨hmiss, hr⟩⟩ := reassemble_cases s.cfg p s.table
  · exact .inl (by rw [htab])
  · by_cases hk : k = k'
    · exact .inr (.inl (hk ▸ (lookup_eq_some.1 hfound).1))
    · exact .inl (by rw [hr, storeFragment_slot_ne hk, acceptHit_slot_ne _ _ hk])
  · by_cases hk : k = s.table.tail
    · exact .inr (.inr ⟨fun j => lookup_eq_none.1 hmiss j (mem_order hperm j), hk ▸ getLast?_order hperm⟩)
    · exact .inl (by rw [hr, storeFragment_slot_ne hk, acceptMiss_slot_ne _ _ _ hk])

/-! ## After a completion -/

/-- A completion leaves an empty slot that still holds the packet's `Id` (R91, R94). -/
theorem slot_of_emitReasm {cfg : Cfg} {p : Bytes} {t : DefragTable} (hst : (reassemble cfg p t).status = .emitReasm) :
    ∃ k, ((reassemble cfg p t).table.slot k).id = (hdrDecode p).id
      ∧ ∀ j, ((reassemble cfg p t).table.slot k).fragAt j = none := by
  obtain ⟨-, ⟨hst', -⟩ | ⟨hkind, -⟩⟩ | ⟨hl, hn, hb, ⟨k, hfound, -, hr⟩ | ⟨hmiss, -⟩⟩ := reassemble_cases cfg p t
  · cases hst.symm.trans hst'
  · rw [hst] at hkind; cases hkind
  · rw [hr] at hst ⊢
    cases ha : (((acceptHit (hdrDecode p) k t).slot k).store (hdrDecode p).fragN.toNat
        (bufRead p 12 (hdrDecode p).len.toNat)).allPresent (hdrDecode p).fragNum.toNat with
    | false => rw [storeFragment_pending ha] at hst; cases hst
    | true =>
      rw [storeFragment_complete ha]
      exact ⟨k, by simpa using (lookup_eq_some.1 hfound).1, by simp⟩
  · rw [reassemble_miss hl hn hb hmiss] at hst; cases hst

/-- Under the invariant an `Id` other than 0 is held by one slot only, so the lookup's split of ORDER is at that slot (R85). -/
theorem order_split_of_id {cfg : Cfg} {t : DefragTable} (hok : t.Ok cfg) {id : BitVec 64} (hne : id ≠ 0) {k : SlotIx}
    (hk : (t.slot k).id = id) :
    ∃ before after, t.order = before ++ k :: after ∧ ∀ j ∈ before, (t.slot j).id ≠ id := by
  obtain ⟨-, hperm, hids⟩ := hok
  obtain ⟨before, after, horder, hnot⟩ := List.eq_append_cons_of_mem (mem_order hperm k)
  refine ⟨before, after, horder, fun j hj he => hne ?_⟩
  rw [← he]
  exact hids j k (ne_of_mem_of_not_mem hj hnot) (he.trans hk.symm)

/-- A slot with one present entry has a count of 1: without that entry it is empty. -/
theorem count_eq_one {sl : Slot} {i : Nat} {pay : Bytes} (hi : sl.fragAt i = some pay)
    (hne : ∀ j, j ≠ i → sl.fragAt j = none) : sl.count = 1 := by
  have hlt : i < sl.frag.length := by
    by_contra hge
    simp [Slot.fragAt, Nat.le_of_not_lt hge] at hi
  have hget : sl.frag[i] = some pay := by simpa [Slot.fragAt, hlt] using hi
  have herased : ({ sl with frag := sl.frag.set i none } : Slot).count = 0 := by
    rw [count_eq_zero_iff]
    intro j
    by_cases hji : j = i
    · simp [Slot.fragAt, hji, hlt]
    · simpa [Slot.fragAt, List.getElem?_set_ne (Ne.symm hji)] using hne j hji
  have hpos : 0 < sl.count := List.countP_pos_iff.2 ⟨_, List.getElem_mem hlt, by simp [hget]⟩
  simp only [Slot.count, List.countP_set hlt, hget, Option.isSome_some, Option.isSome_none, if_true, Bool.false_eq_true,
    if_false] at herased hpos ⊢
  omega

theorem exists_lt_ne {n : Nat} (hn : 2 ≤ n) (i : Nat) : ∃ j < n, j ≠ i := by
  by_cases hi : i = 0
  · exact ⟨1, by omega, by omega⟩
  · exact ⟨0, by omega, by omega⟩

theorem exec_keeps_inv {i : Instr} {s t : State} (hinv : s.Inv) (h : exec i s = .next t) : t.Inv := by
  unfold State.Inv
  rw [exec_keeps_cfg h]
  exact ⟨hinv.1, exec_keeps_table_ok hinv.2 h⟩

/-- Settles O34: the completed slot is the one the replay hits, and being empty it takes the replay's count and its one fragment
(`reasmHitStoresTheFragment`). -/
theorem replayStartsANewReassembly : Obligations.ReplayStartsANewReassembly := by
  intro p q d s t c hinv hne h hobs hq hl hn hb
  have hinv' := exec_keeps_inv hinv h
  obtain ⟨-, htab, hst⟩ := exec_reasm_inv h hobs
  obtain ⟨k, hk, hempty⟩ := slot_of_emitReasm hst.symm
  rw [← htab] at hk hempty
  rw [← exec_keeps_cfg h] at hl hb
  obtain ⟨before, after, horder, hbefore⟩ := order_split_of_id hinv'.2 hne hk
  obtain ⟨j, hj, hjN⟩ := exists_lt_ne hn (hdrDecode q).fragN.toNat
  rw [← hq] at hbefore hk
  obtain ⟨u, hu, -, hobs', horder', -, hid, hexp, hpay, hrest⟩ := reasmHitStoresTheFragment q t k before after j hinv' hl hn hb
    horder hbefore hk (.inl ((count_eq_zero_iff _).2 hempty)) hj hjN (hempty j)
  exact ⟨u, k, hu, hobs', by rw [horder', List.head?_cons], hid.trans hq, hexp,
    count_eq_one hpay fun i hi => (hrest i hi).trans (hempty i)⟩

end Sys2Proof.Machine
end

section
/-! PROOFS. The statuses (spec 60_exceptions R97-R102): the closed table of codes, an illegal command, the precision of every
violation and fault, and the one status of a REASM by the priority rule. -/

namespace Sys2Proof.Machine

/-! ## The closed table -/

/-- The rows of the status table, in its order (R97). -/
def Status.table : List Status :=
  [.ok, .emitFast, .emitReasm, .pending, .pvShort, .pvLength, .pvBadHeader, .pvCountMismatch, .frEmpty, .frTooLong, .frTooMany,
    .errIllegalOp, .errShortBuffer]

/-- The table is closed: every status has a row. -/
theorem mem_statusTable (st : Status) : st ∈ Status.table := by
  cases st <;> decide

/-- Settles O38: the codes of the rows are without repeats, and every status has a row. -/
theorem statusCodesAreTheTable : Obligations.StatusCodesAreTheTable := by
  have hnodup : (Status.table.map Status.code).Nodup := by decide
  exact ⟨fun a b => List.inj_on_of_nodup_map hnodup (mem_statusTable a) (mem_statusTable b), rfl⟩

/-! ## An illegal command -/

/-- A presented command that is not in the opcode map records its event and nothing else (R98). -/
theorem present_of_illegalOp {c : Command} {s : State} (hv : s.cfg.valid = true) (h : decode c = .error .illegalOp) :
    present c s = .next (s.record ⟨c, .errIllegalOp, .nothing⟩) := by
  simp [present, h, execIllegal, whenValid_of_valid hv, raise, finish]

/-- Settles O6: these are the words the decoder calls illegal (`illegalCommandsAreTheRest`), whatever the operand record. -/
theorem illegalCommandChangesNothing : Obligations.IllegalCommandChangesNothing := by
  intro s e cw o rest hv hinputs hrun hword
  have hdec : decode ⟨e, cw, o⟩ = .error .illegalOp := (illegalCommandsAreTheRest ⟨e, cw, o⟩).2 hword
  have hstep : step s = present ⟨e, cw, o⟩ (s.setInputs rest) := by
    rw [step_command hv hinputs, hrun, if_neg Bool.false_ne_true]
  rw [hstep, present_of_illegalOp (s := s.setInputs rest) hv hdec]
  exact ⟨_, rfl, observed_record _ _, blockSame_record (s.setInputs rest) _⟩

/-! ## Precision -/

/-- A REASM whose status is no success leaves the table and presents nothing (R92, R39). -/
theorem reassemble_precise {cfg : Cfg} {p : Bytes} {t : DefragTable} (h : (reassemble cfg p t).status.kind ≠ .success) :
    (reassemble cfg p t).table = t ∧ (reassemble cfg p t).output = .nothing := by
  have hne : ∀ st : Status, st.kind = .success → (reassemble cfg p t).status ≠ st := fun st hst he => h (he ▸ hst)
  exact ⟨reassemble_table_of_status (hne .pending rfl) (hne .emitReasm rfl),
    (reassemble_presentsOnEmit cfg p t).2 (not_or.2 ⟨hne .emitFast rfl, hne .emitReasm rfl⟩)⟩

/-- Settles O36: of the kinds of effect a command can have (`exec_observed`) the first writes nothing, a FRAG that writes `ID`
ends with `OK`, and a REASM is precise by `reassemble_precise`. -/
theorem nonSuccessIsPrecise : Obligations.NonSuccessIsPrecise := by
  intro i s t ev h hobs hkind
  obtain ⟨-, ev', -, hobs', hcases⟩ := exec_observed h
  obtain rfl := observed_unique hobs hobs'
  obtain ⟨hsame, -, -, hout⟩ | ⟨-, -, -, hst, -⟩ | ⟨p, -, hst, hout, hid, htab⟩ := hcases
  · exact ⟨hsame, hout hkind⟩
  · exact absurd (congrArg Status.kind hst) hkind
  · obtain ⟨htable, hnothing⟩ := reassemble_precise (hst ▸ hkind)
    exact ⟨⟨hid, htab.trans htable⟩, hout.trans hnothing⟩

/-! ## The first cause of a REASM's status -/

/-- A store completes the slot exactly when every other entry is already present (R90). -/
theorem allPresent_store_iff {sl : Slot} {i n : Nat} {pay : Bytes} (hi : i < sl.frag.length) :
    (sl.store i pay).allPresent n = true ↔ ∀ j < n, j ≠ i → (sl.fragAt j).isSome = true := by
  rw [allPresent_iff]
  refine forall₂_congr fun j _ => ?_
  by_cases hji : j = i
  · simp [hji, store_fragAt_same sl i pay hi]
  · simp [hji, store_fragAt_ne sl pay hji]

theorem storeFragment_status_eq {cfg : Cfg} {h : Header} {pay : Bytes} {k : SlotIx} {t : DefragTable}
    (hlen : h.fragN.toNat < (t.slot k).frag.length) :
    (storeFragment cfg h pay k t).status =
      if ∀ j < h.fragNum.toNat, j ≠ h.fragN.toNat → ((t.slot k).fragAt j).isSome = true then .emitReasm else .pending := by
  simp only [storeFragment, allPresent_store_iff hlen]
  split <;> rfl

/-- The last causes, on a hit: the count of the slot found, then whether it lacks another fragment (R86, R90, R91). -/
theorem reassemble_status_hit {cfg : Cfg} {p : Bytes} {t : DefragTable} {k : SlotIx} (hok : t.Ok cfg)
    (hl : lengthViolation cfg p = none) (hn : 2 ≤ (hdrDecode p).fragNum.toNat) (hb : badHeader cfg (hdrDecode p) = false)
    (hk : t.lookup (hdrDecode p).id = some k) :
    (reassemble cfg p t).status =
      if (t.slot k).count ≠ 0 ∧ (t.slot k).expected ≠ (hdrDecode p).fragNum then .pvCountMismatch
      else if ∀ j < (hdrDecode p).fragNum.toNat, j ≠ (hdrDecode p).fragN.toNat → ((t.slot k).fragAt j).isSome = true
        then .emitReasm else .pending := by
  by_cases hm : (t.slot k).count ≠ 0 ∧ (t.slot k).expected ≠ (hdrDecode p).fragNum
  · rw [if_pos hm, reassemble_mismatch hl hn hb hk (by simpa [countMismatch] using hm)]
  · have hacc : (t.slot k).count = 0 ∨ (t.slot k).expected = (hdrDecode p).fragNum := by tauto
    obtain ⟨hid, before, after, horder, hbefore⟩ := lookup_eq_some.1 hk
    obtain ⟨hcap, hN⟩ := badHeader_eq_false hb
    have hlen : (hdrDecode p).fragN.toNat < ((acceptHit (hdrDecode p) k t).slot k).frag.length := by
      rw [acceptHit_slot_same, setExpected_frag, (hok.1 k).1]
      omega
    rw [if_neg hm, reassemble_hit hl hn hb horder hbefore hid hacc, storeFragment_status_eq hlen]
    simp

/-- Settles O29: down the causes in their order, each decided once those before it are excluded; only on a hit does the table
have a part in the status (`reassemble_status_hit`). -/
theorem reasmStatusIsTheFirstCause : Obligations.ReasmStatusIsTheFirstCause := by
  intro p s ⟨hv, hok⟩ h hit status
  have hstatus : (reassemble s.cfg p s.table).status = status := by
    unfold status
    split
    · next hshort => rw [reassemble_length (st := .pvShort) (if_pos hshort)]
    · next hfloor =>
      split
      · next hne => rw [reassemble_length (lengthViolation_of_length_ne (Nat.not_lt.1 hfloor) hne)]
      · next heq =>
        have hl := lengthViolation_eq_none.2 ⟨Nat.not_lt.1 hfloor, not_not.1 heq⟩
        split
        · next hfast => rw [reassemble_fast hl hfast]
        · next hslow =>
          have hn : 2 ≤ (hdrDecode p).fragNum.toNat := Nat.not_le.1 hslow
          split
          · next hbad => rw [reassemble_badHeader hl hn (by simpa [badHeader] using hbad)]
          · next hgood =>
            have hb : badHeader s.cfg (hdrDecode p) = false := by simpa [badHeader] using hgood
            cases hk : hit with
            | none => rw [reassemble_miss hl hn hb hk]
            | some k => exact reassemble_status_hit hok hl hn hb hk
  obtain ⟨t, ht, hid, hobs, -⟩ := exec_reasm_answer (p := p) hv rfl
  exact ⟨t, _, ht, hid, hstatus ▸ hobs⟩

end Sys2Proof.Machine
end

section
/-! PROOFS. The resets (spec 70_reset_and_hazards R111-R114): a reset step, and the table after an INGRESS reset. -/

namespace Sys2Proof.Machine

/-- A step on a reset event under a legal configuration. -/
theorem step_reset {s : State} {r : ResetEvent} {rest : List Input} (hv : s.cfg.valid = true)
    (hi : s.inputs = .reset r :: rest) : step s = .next (applyReset r (s.setInputs rest)) := by
  simp [step, whenValid_of_valid hv, hi]

/-- R111: `RST_I` and power-on, which is both resets at once, reset INGRESS. -/
theorem applyReset_table_of_ingress {r : ResetEvent} (hr : r = .rstI ∨ r = .powerOn) (s : State) :
    (applyReset r s).table = DefragTable.reset s.cfg.fragCap := by
  obtain rfl | rfl := hr
  · exact resetIngress_table s
  · exact resetIngress_table (resetEgress s)

theorem applyReset_rstI_id (s : State) : (applyReset .rstI s).id = s.id := resetIngress_id s

/-- Settles O41: either event puts the table at `DefragTable.reset`, whose slots are all `Slot.reset`. -/
theorem ingressResetState : Obligations.IngressResetState := by
  intro s r rest hv hi hr
  have htable := applyReset_table_of_ingress hr (s.setInputs rest)
  refine ⟨_, step_reset hv hi, applyReset_cfg r _, ?_, ?_, fun k => ?_⟩
  · rintro rfl
    exact applyReset_rstI_id (s.setInputs rest)
  · rw [htable, order_reset]
  · rw [htable, slot_reset]
    exact ⟨rfl, rfl, reset_fragAt _⟩

end Sys2Proof.Machine
end

section
/-! PROOFS. The observation traces (spec 00_scope R13, 60_exceptions R104): whatever a step does, each engine's trace before it is
a prefix of the trace after it, so a recorded fault stays. -/

namespace Sys2Proof.Machine

/-- Whichever engine's event is observed, both traces before it are prefixes of those after it. -/
theorem trace_prefix_of_observed {ev : Event} {s t : State} (h : Observed ev s t) (e : Engine) : s.trace e <+: t.trace e := by
  obtain ⟨hown, hother, -⟩ := h
  obtain rfl | rfl : e = ev.command.engine ∨ e = otherEngine ev.command.engine := by
    cases e <;> cases ev.command.engine <;> decide
  · exact ⟨[ev], hown.symm⟩
  · exact hother ▸ List.prefix_rfl

theorem trace_prefix_exec {i : Instr} {s t : State} (h : exec i s = .next t) (e : Engine) : s.trace e <+: t.trace e := by
  obtain ⟨-, ev, -, hobs, -⟩ := exec_observed h
  exact trace_prefix_of_observed hobs e

/-- A reset of either engine keeps both traces (entry 15). -/
@[simp] theorem applyReset_trace (r : ResetEvent) (s : State) (e : Engine) : (applyReset r s).trace e = s.trace e := by
  cases r <;> cases e <;> rfl

@[simp] theorem applyHost_trace (ev : HostEvent) (s : State) (e : Engine) : (applyHost ev s).trace e = s.trace e := by
  cases ev <;> cases e <;> rfl

/-- Of the kinds of step only a command writes a trace, and it appends its event. -/
theorem trace_prefix_step {s t : State} (h : step s = .next t) (e : Engine) : s.trace e <+: t.trace e := by
  obtain ⟨-, ⟨-, rfl⟩ | ⟨c, rest, i, -, -, -, hx⟩ | ⟨c, rest, -, -, -, rfl⟩ | ⟨r, rest, -, rfl⟩ | ⟨ev, rest, -, rfl⟩⟩ :=
    step_cases h
  · exact List.prefix_rfl
  · exact setInputs_trace s rest e ▸ trace_prefix_exec hx e
  · exact setInputs_trace s rest e ▸ trace_prefix_of_observed (observed_record (s.setInputs rest) _) e
  · simp
  · simp

theorem faultFree_iff (s : State) : s.faultFree = true ↔ ∀ e, ∀ ev ∈ s.trace e, ev.status.kind ≠ .fault := by
  simp only [State.faultFree, List.all_append, Bool.and_eq_true, List.all_eq_true, decide_eq_true_eq]
  exact ⟨fun ⟨hE, hI⟩ e => match e with | .egress => hE | .ingress => hI, fun h => ⟨h .egress, h .ingress⟩⟩

theorem faultFree_of_trace_prefix {s t : State} (h : ∀ e, s.trace e <+: t.trace e) (ht : t.faultFree = true) :
    s.faultFree = true :=
  (faultFree_iff s).2 fun e ev hev => (faultFree_iff t).1 ht e ev ((h e).subset hev)

/-- Settles O39: the appended events are what `trace_prefix_step` leaves of each trace, and a fault-free trace has only fault-free
prefixes. -/
theorem tracesOnlyGrow : Obligations.TracesOnlyGrow := by
  intro s t h
  obtain ⟨newE, hE⟩ := trace_prefix_step h .egress
  obtain ⟨newI, hI⟩ := trace_prefix_step h .ingress
  refine ⟨⟨newE, hE.symm⟩, ⟨newI, hI.symm⟩, fun hs => ?_⟩
  rw [← Bool.not_eq_true] at hs ⊢
  exact mt (faultFree_of_trace_prefix (trace_prefix_step h)) hs

end Sys2Proof.Machine
end

section
/-! PROOFS. The model's own choices about the host's moves (spec 60_exceptions R109, 30_encoding R56): an engine without a move
waits (entry 2), and a legal word with another command's operand record is refused by name (entry 8). -/

namespace Sys2Proof.Machine

/-! ## Waiting -/

/-- Settles O9: the arm of `step` for an empty list of moves, behind the configuration check. -/
theorem withoutInputTheEnginesWait : Obligations.WithoutInputTheEnginesWait := by
  intro s hv hi
  rw [step, whenValid_of_valid hv, hi]

/-! ## A mismatched operand record -/

/-- The decoder's `operandMismatch` is a row of the opcode map whose operand record is of another command. -/
theorem decode_eq_operandMismatch_iff (c : Command) : decode c = .error .operandMismatch ↔
    ∃ op, opcodeOf c.engine c.cw = some op ∧ instrOf c.engine op c.operand = none := by
  unfold decode
  cases opcodeOf c.engine c.cw with
  | none => simp
  | some op => cases hi : instrOf c.engine op c.operand <;> simp [hi]

/-- The opcode map by the number of the word (R55), row by row; what it does not have is `opcodeOf_eq_none_iff`. -/
theorem opcodeOf_eq_some_iff {e : Engine} {cw : BitVec 8} {op : Opcode} : opcodeOf e cw = some op ↔
    (op = .henc ∧ cw.toNat = 1) ∨ (op = .hdec ∧ cw.toNat = 2) ∨ (op = .align ∧ cw.toNat = 3)
    ∨ (op = .frag ∧ cw.toNat = 4 ∧ e = .egress) ∨ (op = .reasm ∧ cw.toNat = 5 ∧ e = .ingress) := by
  have hword : ∀ n < 256, cw.toNat = n ↔ cw = BitVec.ofNat 8 n := fun n hn => by bv_omega
  rw [hword 1 (by decide), hword 2 (by decide), hword 3 (by decide), hword 4 (by decide), hword 5 (by decide)]
  refine ⟨opcodeOf_cases, ?_⟩
  rintro (⟨rfl, rfl⟩ | ⟨rfl, rfl⟩ | ⟨rfl, rfl⟩ | ⟨rfl, rfl, rfl⟩ | ⟨rfl, rfl, rfl⟩) <;> rfl

/-- The operand record is not the one the row's commands take (R56). -/
def OperandMismatches (o : Operand) : Opcode → Prop
  | .henc => ∀ h, o ≠ .fields h
  | .align => ∀ n, o ≠ .natural n
  | .hdec | .frag | .reasm => ∀ b, o ≠ .bytes b

theorem instrOf_eq_none_iff (e : Engine) (op : Opcode) (o : Operand) : instrOf e op o = none ↔ OperandMismatches o op := by
  cases op <;> cases o <;> simp [instrOf, OperandMismatches]

/-- Under a legal configuration only the decoder's `operandMismatch` is refused by that name: an instruction is executed, an
illegal word ends with its status. -/
theorem present_eq_operandMismatch_iff {c : Command} {s : State} (hv : s.cfg.valid = true) :
    present c s = .refused .operandMismatch ↔ decode c = .error .operandMismatch := by
  match hd : decode c with
  | .ok i =>
    obtain ⟨t, ht⟩ := exists_exec_eq_next hv i
    simp [present_of_decode_ok hd, ht]
  | .error .illegalOp => simp [present_of_illegalOp hv hd]
  | .error .operandMismatch => simp [present, hd]

/-- Settles O10: the step presents the command, the decoder finds the mismatch in one row of the opcode map, and the rows that
take a byte sequence are HDEC's, FRAG's and REASM's. -/
theorem mismatchedOperandIsRefused : Obligations.MismatchedOperandIsRefused := by
  intro s c rest hv hi hrun
  rw [step_command hv hi, hrun, if_neg Bool.false_ne_true, present_eq_operandMismatch_iff (s := s.setInputs rest) hv,
    decode_eq_operandMismatch_iff]
  simp only [opcodeOf_eq_some_iff, instrOf_eq_none_iff]
  constructor
  · rintro ⟨op, ⟨rfl, hw⟩ | ⟨rfl, hw⟩ | ⟨rfl, hw⟩ | ⟨rfl, hw⟩ | ⟨rfl, hw⟩, ho⟩
    · exact .inl ⟨hw, ho⟩
    · exact .inr (.inr ⟨.inl hw, ho⟩)
    · exact .inr (.inl ⟨hw, ho⟩)
    · exact .inr (.inr ⟨.inr (.inl hw), ho⟩)
    · exact .inr (.inr ⟨.inr (.inr hw), ho⟩)
  · rintro (⟨hw, ho⟩ | ⟨hw, ho⟩ | ⟨hw | hw | hw, ho⟩)
    · exact ⟨.henc, by simp [hw], ho⟩
    · exact ⟨.align, by simp [hw], ho⟩
    · exact ⟨.hdec, by simp [hw], ho⟩
    · exact ⟨.frag, by simp [hw], ho⟩
    · exact ⟨.reasm, by simp [hw], ho⟩

end Sys2Proof.Machine
end

section
/-! PROOFS. The EGRESS reset, the state after power-on (spec 70_reset_and_hazards R111-R114), and the host's events with the end of
a run (60_exceptions R106, R110; entry 9). -/

namespace Sys2Proof.Machine

/-- Settles O42: the step is `resetEgress`, of which every field named is left alone. -/
theorem egressResetLeavesIngress : Obligations.EgressResetLeavesIngress := by
  intro s rest hv hi
  exact ⟨_, step_reset hv hi, resetEgress_cfg _, resetEgress_table _, resetEgress_inputs _, resetEgress_traceE _,
    resetEgress_traceI _, resetEgress_endedI _⟩

@[simp] theorem reset_length (c : Nat) : (Slot.reset c).frag.length = c := List.length_replicate

/-- Settles O43: the table is `DefragTable.reset`, whose slots are all `Slot.reset`; `Config.reference` is the configuration
written out. -/
theorem powerOnState : Obligations.PowerOnState := by
  refine ⟨fun cfg => ⟨rfl, rfl, rfl, rfl, fun k => ?_⟩, rfl⟩
  have hslot : (State.powerOn cfg).table.slot k = Slot.reset cfg.fragCap := slot_reset cfg.fragCap k
  rw [hslot]
  exact ⟨rfl, rfl, reset_length _, reset_fragAt _⟩

/-! ## The host's events -/

/-- A step on a host event under a legal configuration. -/
theorem step_host {s : State} {ev : HostEvent} {rest : List Input} (hv : s.cfg.valid = true)
    (hi : s.inputs = .host ev :: rest) : step s = .next (applyHost ev (s.setInputs rest)) := by
  rw [step, whenValid_of_valid hv, hi]

@[simp] theorem applyHost_id (ev : HostEvent) (s : State) : (applyHost ev s).id = s.id := by cases ev <;> rfl

@[simp] theorem applyHost_inputs (ev : HostEvent) (s : State) : (applyHost ev s).inputs = s.inputs := by cases ev <;> rfl

/-- Settles O44: `applyHost` writes nothing but the flags of the runs its event names, and `step` looks at the flag before it
presents the command. -/
theorem hostEndsRuns : Obligations.HostEndsRuns := by
  refine ⟨fun s ev rest hv hi => ⟨_, step_host hv hi, by simp [BlockSame], by simp, by simp, ?_, ?_, ?_⟩,
    fun s c rest hv hi hended => ?_⟩
  · rintro rfl; exact ⟨rfl, rfl⟩
  · rintro rfl; exact ⟨rfl, rfl⟩
  · rintro rfl; exact ⟨rfl, rfl⟩
  · rw [step_command hv hi, if_pos hended]

end Sys2Proof.Machine
end
